-- ==== Sys2Proof/Word.lean ====
section
/-! DEFINITION. The word of the bus and of a command, and a byte of it. -/

namespace Sys2Proof

/-- A 32-bit bus word; a command is one such word (20_memory.md R51, 30_encoding.md R70). -/
abbrev Word := BitVec 32

/-- One byte lane of a bus word (20_memory.md R53). -/
abbrev Byte := BitVec 8

end Sys2Proof
end

