-- ==== Sys2Proof/Config.lean ====
section
/-! DEFINITION. The parameters of one instance (00_scope.md R6). They are plain data held in State and no step
changes them, so a statement about every state is a statement about every width, base address and reset polarity. -/

namespace Sys2Proof

/-- The parameters of R6 that a program can notice. LATENCY is no number here: it is the place of the engine's turn
in `Machine.State.turns` (log 3). -/
structure Config where
  /-- NWORDS = W / 32: how many bus words an operand or result register takes. -/
  nwords : Nat
  /-- BASE: the bus byte address of offset 0 of the register window. -/
  base : Nat
  /-- RESET_POLARITY: true when a high level of the reset pin asserts reset. -/
  resetActiveHigh : Bool
deriving DecidableEq, Repr

/-- W, the width in bits of every operand and result register (R6: NWORDS = W / 32). -/
def Config.width (c : Config) : Nat := 32 * c.nwords

/-- The size of the register window in bytes, 0x2000 (20_memory.md R50). -/
def Config.windowSize : Nat := 0x2000

/-- The configuration of State.reset: W = 64, the reference of R7; BASE = 0 and an active-low reset pin are
DESIGN CHOICES (log 2), since R6 leaves both OPEN. -/
def Config.reference : Config := { nwords := 2, base := 0, resetActiveHigh := false }

end Sys2Proof
end

