-- ==== Sys2Proof/Syntax.lean ====
section
/-! DEFINITION. The five commands, one constructor per row of the opcode table. -/

namespace Sys2Proof

/-- The commands of 30_encoding.md R71. No command has an operand field (R73): each reads fixed registers. -/
inductive Instr where
  /-- extended_gcd_unit: `egcd(a, b)` (40_egcd.md R101). -/
  | egcd
  /-- modular_inverse_solver: `mod_inverse(e, phi)` (41_modinv.md R110). -/
  | modinv
  /-- modular_exponentiation_engine: base^exp mod n (42_modexp.md R121). -/
  | modexp
  /-- One element of `encrypt` (42_modexp.md R122). -/
  | encstep
  /-- One element of `decrypt` (42_modexp.md R123). -/
  | decstep
deriving DecidableEq, Repr

end Sys2Proof
end

