-- ==== Sys2Proof/WellFormed.lean ====
section
/-! DEFINITION. What makes a configuration and an instruction well formed. -/

namespace Sys2Proof

/-- 1 <= NWORDS <= 256, that is W a multiple of 32 with 32 <= W <= 8192 (00_scope.md R6). -/
def Config.widthOk (c : Config) : Bool := 1 ≤ c.nwords && c.nwords ≤ 256

/-- BASE is aligned to 0x2000 (00_scope.md R6). -/
def Config.baseOk (c : Config) : Bool := c.base % Config.windowSize == 0

/-- The ranges R6 gives the parameters. -/
def Config.wf (c : Config) : Bool := c.widthOk && c.baseOk

/-- A command has no field (30_encoding.md R73), so there is nothing in it to be ill formed. -/
def Instr.wf : Instr → Bool
  | .egcd => true
  | .modinv => true
  | .modexp => true
  | .encstep => true
  | .decstep => true

end Sys2Proof
end

