-- ==== Sys2Proof/Decode.lean ====
section
/-! DEFINITION. Decoding a command word (30_encoding.md R70 to R72), total and rejecting by name, and encoding. -/

namespace Sys2Proof

/-- Why a word or a run of bytes is no command. -/
inductive IllegalWord where
  /-- RSV, bits 31:4, is not 0 (R72). -/
  | reservedBitsSet
  /-- RSV is 0 and OP is 0x0 or 0x6 to 0xF (R76). -/
  | reservedOpcode
  /-- Fewer than the four bytes of a command word. -/
  | truncated
deriving DecidableEq, Repr

/-- What decoding answers. -/
inductive Decoded where
  /-- One of the five command words of R71. -/
  | command (i : Instr)
  /-- Any other word: it completes with ILLEGAL_OPCODE (R72). -/
  | illegal (why : IllegalWord)
deriving DecidableEq, Repr

/-- OP, bits 3:0 (R70). -/
def opField (w : Word) : BitVec 4 := w.extractLsb' 0 4

/-- RSV, bits 31:4 (R70). -/
def rsvField (w : Word) : BitVec 28 := w.extractLsb' 4 28

/-- The opcode map, R71. -/
def decodeOp (op : BitVec 4) : Decoded :=
  if op = 0x1#4 then .command .egcd
  else if op = 0x2#4 then .command .modinv
  else if op = 0x3#4 then .command .modexp
  else if op = 0x4#4 then .command .encstep
  else if op = 0x5#4 then .command .decstep
  else .illegal .reservedOpcode

/-- R72: RSV is looked at first, then OP. -/
def decodeWord (w : Word) : Decoded :=
  if rsvField w = 0#28 then decodeOp (opField w) else .illegal .reservedBitsSet

/-- A bus word from its four byte lanes, lane 0 the least significant (20_memory.md R53). -/
def wordOfLanes (b0 b1 b2 b3 : Byte) : Word := b3 ++ b2 ++ b1 ++ b0

/-- Byte lane `k` of a bus word: bits [8k+7:8k] (20_memory.md R53). -/
def laneOf (w : Word) (k : Nat) : Byte := w.extractLsb' (8 * k) 8

/-- The four lanes of a word, the lowest address first (20_memory.md R53). -/
def lanes (w : Word) : List Byte := [laneOf w 0, laneOf w 1, laneOf w 2, laneOf w 3]

/-- Decode the first command of a run of bytes; a command is always four bytes (R70, R77). The rest is given back. -/
def decodeBytes : List Byte → Decoded × List Byte
  | b0 :: b1 :: b2 :: b3 :: rest => (decodeWord (wordOfLanes b0 b1 b2 b3), rest)
  | short => (.illegal .truncated, short)

/-- OP of each command (R71). -/
def opOf : Instr → BitVec 4
  | .egcd => 0x1#4
  | .modinv => 0x2#4
  | .modexp => 0x3#4
  | .encstep => 0x4#4
  | .decstep => 0x5#4

/-- The command word: RSV = 0 above OP (R70, R71). -/
def encode (i : Instr) : Word := 0#28 ++ opOf i

/-- The command word as bytes, the lowest address first (20_memory.md R53). -/
def encodeBytes (i : Instr) : List Byte := lanes (encode i)

/-- The instruction the decoder reads from the table's word `w` of `nbits` bits, laid out as the bus lays it out. -/
def decodeTableWord (nbits w : Nat) : Option Instr :=
  match decodeBytes (lanes (BitVec.ofNat 32 (w % 2 ^ nbits))) with
  | (.command i, _) => some i
  | (.illegal _, _) => none

end Sys2Proof
end

