-- ==== Sys2Proof/Machine/State.lean ====
section
/-! DEFINITION. The block's state as plain data, its reset, and why a step can stop. -/

namespace Sys2Proof.Machine

/-- The six data registers (10_state.md R21). -/
inductive DataReg where
  | opa | opb | opc | res0 | res1 | res2
deriving DecidableEq, Repr

/-- The error of a command that completes with one (60_exceptions.md R160). Its code is `CmdError.code`. -/
inductive CmdError where
  | illegalOpcode | illegalOperand | noInverse | charTooLarge | invalidChar
deriving DecidableEq, Repr

/-- The result-register writes of a completion without error (10_state.md R38); `none` leaves the register. -/
structure Writes where
  res0 : Option (List Word)
  res1 : Option (List Word)
  res2 : Option (List Word)
deriving DecidableEq, Repr

/-- The end of a command: `raise` or `complete` (00_scope.md R10). -/
inductive CmdResult where
  | raise (e : CmdError)
  | complete (w : Writes)
deriving DecidableEq, Repr

/-- What a host access does (30_encoding.md R78). -/
inductive AccessKind where
  | read
  | write (data : Word)
deriving DecidableEq, Repr

/-- One host access at the bus port: a byte address of the bus and a width in bits. The data bus is 32 bits wide
(92_eei_decisions.md D6), so a write carries one word; an access of another width is errored and its data unread. -/
structure Access where
  kind : AccessKind
  addr : Nat
  width : Nat
deriving DecidableEq, Repr

/-- What the block answers on the bus. -/
inductive Response where
  /-- A read that was accepted, and its data. -/
  | readOk (data : Word)
  /-- A write that was accepted; a dropped or ignored write is accepted too (10_state.md R36). -/
  | writeOk
  /-- A bus error on a read; the data is 0 (20_memory.md R52). -/
  | readError (data : Word)
  /-- A bus error on a write (20_memory.md R52). -/
  | writeError
deriving DecidableEq, Repr

/-- One move of one agent (10_state.md R20, 70_reset_and_hazards.md R190). -/
inductive Turn where
  /-- The host's next access takes effect. -/
  | access (a : Access)
  /-- The engine takes its step if it is enabled. -/
  | engine
  /-- The reset pin takes this level. -/
  | resetPin (level : Bool)
deriving DecidableEq, Repr

/-- The block's state (10_state.md R21 to R31), the instance's parameters, and the model's own record of what the
outside world still does (`turns`) and what the block has answered (`responses`). -/
structure State where
  /-- The instance's parameters; no step changes them (log 1). -/
  cfg : Config
  /-- OPA as NWORDS bus words, least significant first (20_memory.md R54). -/
  opa : List Word
  opb : List Word
  opc : List Word
  /-- RES0, RES1, RES2 in the same layout. -/
  res0 : List Word
  res1 : List Word
  res2 : List Word
  /-- CTRL.IE (R26). -/
  ie : Bool
  /-- STATUS.BUSY, DONE, WBUSY (R28). -/
  busy : Bool
  done : Bool
  wbusy : Bool
  /-- STATUS.ERR, bits 7:4 of STATUS (R28). -/
  err : BitVec 4
  /-- CUR, the command word latched at start (R30). -/
  cur : Word
  /-- The reset input is asserted now (70_reset_and_hazards.md R190). -/
  resetAsserted : Bool
  /-- The moves still to come, the next one first (20_memory.md R59; log 3). -/
  turns : List Turn
  /-- The bus responses given so far, the newest first (log 4). -/
  responses : List Response
deriving DecidableEq, Repr

/-- A data register of value 0 (10_state.md R33). -/
def zeroReg (nwords : Nat) : List Word := List.replicate nwords 0

/-- The state after reset of an instance with parameters `c` (10_state.md R33), with no move to come. -/
def State.resetOf (c : Config) : State where
  cfg := c
  opa := zeroReg c.nwords
  opb := zeroReg c.nwords
  opc := zeroReg c.nwords
  res0 := zeroReg c.nwords
  res1 := zeroReg c.nwords
  res2 := zeroReg c.nwords
  ie := false
  busy := false
  done := false
  wbusy := false
  err := 0
  cur := 0
  resetAsserted := false
  turns := []
  responses := []

/-- The machine right after reset, in the reference configuration (00_scope.md R7; logs 1, 2). -/
def State.reset : State := State.resetOf Config.reference

/-- Why the model stops with a fault. -/
inductive Fault where
  /-- A host access at an address outside [BASE, BASE + 0x2000), raised by `State.access`: the block does not decode
  it, and what the platform does is outside the spec (20_memory.md R50). Safe: the model stops (log 6). -/
  | outsideWindow
deriving DecidableEq, Repr

/-- Why the model refuses a step. -/
inductive Refusal where
  /-- An instruction with no meaning yet, by its mnemonic, answered by `exec`. No arm answers it in this model. Safe. -/
  | notModelled (mnemonic : String)
  /-- A host access to the window while reset is asserted, answered by `State.access`: "a model refuses such an
  access" (70_reset_and_hazards.md R190). Safe. -/
  | accessDuringReset
deriving DecidableEq, Repr

end Sys2Proof.Machine
end

