-- ==== Sys2Proof/Machine/Operands.lean ====
section
/-! DEFINITION. A W-bit register as its bus words, read as an integer and written from one (00_scope.md R9,
20_memory.md R54, 30_encoding.md R73, R74). -/

namespace Sys2Proof.Machine

/-- `uint(x[R])`: word k holds bits [32k+31:32k], so the first word is the least significant (R9, R54). -/
def uint : List Word → Nat
  | [] => 0
  | w :: ws => w.toNat + 2 ^ 32 * uint ws

/-- `zext_W(v)` for W = 32 * n, as n words, the least significant first; the bits of `v` from W up are dropped
(R9, R54). For a value the host is asked to write, that drop is the model's choice (log 17). -/
def toWords : Nat → Nat → List Word
  | 0, _ => []
  | n + 1, v => BitVec.ofNat 32 v :: toWords n (v / 2 ^ 32)

/-- `tw_W(z)`: the W-bit vector whose unsigned value is `z mod 2^W`, the non-negative residue (R9). -/
def twosComplement (n : Nat) (z : Int) : List Word := toWords n (z % 2 ^ (32 * n)).toNat

/-- `sint(x[R])`: the two's-complement value of a register (R9). -/
def sint (ws : List Word) : Int :=
  if uint ws < 2 ^ (32 * ws.length - 1) then (uint ws : Int) else (uint ws : Int) - 2 ^ (32 * ws.length)

/-- Word k of a register (R54). -/
def wordAt (ws : List Word) (k : Nat) : Word := ws.getD k 0

/-- Replace word k of a register; only that word's 32 bits change (10_state.md R22). -/
def putWord (ws : List Word) (k : Nat) (w : Word) : List Word := ws.set k w

/-- One register of the register file (10_state.md R21). -/
def State.getReg (s : State) : DataReg → List Word
  | .opa => s.opa
  | .opb => s.opb
  | .opc => s.opc
  | .res0 => s.res0
  | .res1 => s.res1
  | .res2 => s.res2

/-- Write one register of the register file. -/
def State.setReg (s : State) (r : DataReg) (ws : List Word) : State :=
  match r with
  | .opa => { s with opa := ws }
  | .opb => { s with opb := ws }
  | .opc => { s with opc := ws }
  | .res0 => { s with res0 := ws }
  | .res1 => { s with res1 := ws }
  | .res2 => { s with res2 := ws }

/-- The registers the host may write (10_state.md R21): the operand registers. -/
def DataReg.isOperand : DataReg → Bool
  | .opa => true
  | .opb => true
  | .opc => true
  | .res0 => false
  | .res1 => false
  | .res2 => false

/-- The window base of each data register (20_memory.md R55). -/
def DataReg.base : DataReg → Nat
  | .opa => 0x0400
  | .opb => 0x0800
  | .opc => 0x0C00
  | .res0 => 0x1000
  | .res1 => 0x1400
  | .res2 => 0x1800

end Sys2Proof.Machine
end

