-- ==== Sys2Proof/Machine/Flags.lean ====
section
/-! DEFINITION. The control and status words, the error codes, and every rule that computes a STATUS field. -/

namespace Sys2Proof.Machine

/-- The code of each error in STATUS.ERR (60_exceptions.md R160). -/
def CmdError.code : CmdError → BitVec 4
  | .illegalOpcode => 1
  | .illegalOperand => 2
  | .noInverse => 3
  | .charTooLarge => 4
  | .invalidChar => 5

/-- The code a command's end leaves in STATUS.ERR: 0 is NONE (60_exceptions.md R160). -/
def CmdResult.code : CmdResult → BitVec 4
  | .raise e => e.code
  | .complete _ => 0

/-- STATUS as read: BUSY 0, DONE 1, WBUSY 2, reserved 3, ERR 7:4, reserved 31:8 (10_state.md R28). -/
def statusWord (busy done wbusy : Bool) (err : BitVec 4) : Word :=
  0#24 ++ err ++ 0#1 ++ BitVec.ofBool wbusy ++ BitVec.ofBool done ++ BitVec.ofBool busy

/-- CTRL as read: IE in bit 0, SRST and the reserved bits read 0 (10_state.md R26). -/
def ctrlWord (ie : Bool) : Word := 0#31 ++ BitVec.ofBool ie

/-- PARAM as read: NWORDS in bits 15:0, 0 above (10_state.md R29). -/
def paramWord (nwords : Nat) : Word := 0#16 ++ BitVec.ofNat 16 nwords

/-- The STATUS word of a state (10_state.md R28). -/
def State.status (s : State) : Word := statusWord s.busy s.done s.wbusy s.err

/-- A write of STATUS: a 1 in bit 1 clears DONE, a 1 in bit 2 clears WBUSY, all else is ignored (10_state.md R28). -/
def State.clearStatus (v : Word) (s : State) : State :=
  { s with done := s.done && !v.getLsbD 1, wbusy := s.wbusy && !v.getLsbD 2 }

/-- A dropped write leaves only WBUSY behind (10_state.md R36). -/
def State.noteDropped (s : State) : State := { s with wbusy := true }

/-- What every completion does to STATUS (10_state.md R35). -/
def State.endCommand (code : BitVec 4) (s : State) : State :=
  { s with busy := false, done := true, err := code }

/-- The interrupt output, a level (10_state.md R31). -/
def State.irq (s : State) : Bool := s.ie && s.done

end Sys2Proof.Machine
end

