-- ==== Sys2Proof/Machine/Ops.lean ====
section
/-! DEFINITION. The shared operations: reset, start, the end of a command, and the host's accesses to the window. -/

namespace Sys2Proof.Machine

/-- Every piece of the block's state at its reset value (10_state.md R33), any command in flight abandoned
(70_reset_and_hazards.md R190, R191). What is not the block's stays: the parameters, the level of the reset pin, the
moves still to come and the responses given. -/
def State.resetBlock (s : State) : State :=
  { State.resetOf s.cfg with resetAsserted := s.resetAsserted, turns := s.turns, responses := s.responses }

/-- The reset pin takes a level. Asserted, and again when released, every piece of state has its reset value
(70_reset_and_hazards.md R190); which level asserts is RESET_POLARITY. -/
def State.driveReset (level : Bool) (s : State) : State :=
  if level = s.cfg.resetActiveHigh then { s.resetBlock with resetAsserted := true }
  else if s.resetAsserted then { s.resetBlock with resetAsserted := false }
  else s

/-- A start (10_state.md R34): nothing about the word is checked. -/
def State.start (v : Word) (s : State) : State := { s with cur := v, busy := true, done := false, err := 0 }

/-- The result writes of a completion; a register not written keeps its value (10_state.md R38). -/
def State.perform (w : Writes) (s : State) : State :=
  { s with res0 := w.res0.getD s.res0, res1 := w.res1.getD s.res1, res2 := w.res2.getD s.res2 }

/-- The end of a command (10_state.md R35). `raise` is the whole of taking an error: no result is written, no state
is saved and no control moves (60_exceptions.md R161, R168). -/
def State.finish (r : CmdResult) (s : State) : State :=
  match r with
  | .raise e => s.endCommand e.code
  | .complete w => (s.perform w).endCommand 0

/-- What an aligned offset of the window names (20_memory.md R55, R56). -/
inductive Target where
  | ctrl
  | cmd
  | status
  | param
  /-- Word k < NWORDS of a data register. -/
  | word (r : DataReg) (k : Nat)
  | unmapped
deriving DecidableEq, Repr

/-- The first rows of 20_memory.md R55, offsets 0x0000 to 0x03FC. -/
def controlTarget (off : Nat) : Target :=
  if off = 0x0000 then .ctrl
  else if off = 0x0004 then .cmd
  else if off = 0x0008 then .status
  else if off = 0x000C then .param
  else .unmapped

/-- The register whose window of 0x400 bytes holds the offset (20_memory.md R55, the other rows). -/
def windowOf (off : Nat) : Option DataReg :=
  if off < 0x0400 then none
  else if off < 0x0800 then some .opa
  else if off < 0x0C00 then some .opb
  else if off < 0x1000 then some .opc
  else if off < 0x1400 then some .res0
  else if off < 0x1800 then some .res1
  else if off < 0x1C00 then some .res2
  else none

/-- The address map, 20_memory.md R55; a word k >= NWORDS of a register's window is unmapped (R56). -/
def targetOf (nwords off : Nat) : Target :=
  match windowOf off with
  | none => controlTarget off
  | some r => if (off - r.base) / 4 < nwords then .word r ((off - r.base) / 4) else .unmapped

/-- An accepted read: no read has a side effect, so it is a function of the state (10_state.md R39, 20_memory.md R57). -/
def State.busRead (s : State) (off : Nat) : Word :=
  match targetOf s.cfg.nwords off with
  | .ctrl => ctrlWord s.ie
  | .cmd => 0
  | .status => s.status
  | .param => paramWord s.cfg.nwords
  | .word r k => wordAt (s.getReg r) k
  | .unmapped => 0

/-- A write of CTRL, idle or busy: SRST = 1 resets the block and the written IE is lost; otherwise IE is set
(10_state.md R26, 70_reset_and_hazards.md R191). -/
def State.writeCtrl (v : Word) (s : State) : State :=
  if v.getLsbD 1 then s.resetBlock else { s with ie := v.getLsbD 0 }

/-- A write of CMD: a start while idle, dropped while busy (10_state.md R34, R36). -/
def State.writeCmd (v : Word) (s : State) : State := if s.busy then s.noteDropped else s.start v

/-- A write of word k of a data register: taken by an operand register while idle, dropped while busy, ignored by a
result register (10_state.md R22, R23, R36). -/
def State.writeWord (r : DataReg) (k : Nat) (v : Word) (s : State) : State :=
  if r.isOperand then
    if s.busy then s.noteDropped else s.setReg r (putWord (s.getReg r) k v)
  else s

/-- An accepted write (10_state.md R39). -/
def State.busWrite (s : State) (off : Nat) (v : Word) : State :=
  match targetOf s.cfg.nwords off with
  | .ctrl => s.writeCtrl v
  | .cmd => s.writeCmd v
  | .status => s.clearStatus v
  | .param => s
  | .word r k => s.writeWord r k v
  | .unmapped => s

/-- One byte of the window as the host's byte lanes carry it (20_memory.md R53). -/
def State.windowByte (s : State) (off : Nat) : Byte := laneOf (s.busRead (off - off % 4)) (off % 4)

/-- The block answers on the bus. -/
def State.respond (r : Response) (s : State) : State := { s with responses := r :: s.responses }

/-- The only access the block accepts: 32 bits at an offset that is a multiple of 4 (20_memory.md R51). -/
def accepted (width off : Nat) : Bool := width == 32 && off % 4 == 0

/-- An access to the window at offset `off`. One that is not accepted gets a bus error and changes nothing
(20_memory.md R52). -/
def State.portAccess (k : AccessKind) (width off : Nat) (s : State) : State :=
  if accepted width off then
    match k with
    | .read => s.respond (.readOk (s.busRead off))
    | .write v => (s.busWrite off v).respond .writeOk
  else
    match k with
    | .read => s.respond (.readError 0)
    | .write _ => s.respond .writeError

/-- The address lies in [BASE, BASE + 0x2000) (20_memory.md R50). -/
def Config.decodes (c : Config) (addr : Nat) : Bool := c.base ≤ addr && addr < c.base + Config.windowSize

/-- A host access takes effect. Outside the window the block decodes nothing (20_memory.md R50, log 6); while reset
is asserted the model refuses it (70_reset_and_hazards.md R190). -/
def State.access (a : Access) (s : State) : Host.Outcome State Fault Refusal :=
  if Config.decodes s.cfg a.addr then
    if s.resetAsserted then .refused .accessDuringReset
    else .next (s.portAccess a.kind a.width (a.addr - s.cfg.base))
  else .fault .outsideWindow

end Sys2Proof.Machine
end

