-- ==== Sys2Proof/Machine/Modexp.lean ====
section
/-! DEFINITION. MODEXP, ENCSTEP and DECSTEP, the modular_exponentiation_engine (42_modexp.md). -/

namespace Sys2Proof.Machine

/-- Square and multiply over the bits of `e`, the least significant first; `fuel` bits are read. -/
def modPowLoop : Nat → Nat → Nat → Nat → Nat → Nat
  | 0, acc, _, _, _ => acc
  | fuel + 1, acc, b, e, n =>
    modPowLoop fuel (if e % 2 = 1 then acc * b % n else acc) (b * b % n) (e / 2) n

/-- ModPow(m, e, n), the residue of m^e in [0, n) (42_modexp.md R120). Only the value is the spec's; the method is the
model's, chosen so that wide exponents can be evaluated (log 10). -/
def modPow (m e n : Nat) : Nat := modPowLoop (e.log2 + 1) (1 % n) (m % n) e n

/-- The largest code point DECSTEP lets through (42_modexp.md R123). -/
def maxCodePoint : Nat := 0x10FFFF

/-- RES0 takes an unsigned value and no other result register is written (10_state.md R38). -/
def completeRes0 (nwords v : Nat) : CmdResult :=
  .complete { res0 := some (toWords nwords v), res1 := none, res2 := none }

/-- The MODEXP command as a function of its operands (42_modexp.md R121). -/
def modexpCommand (nwords : Nat) (A B C : List Word) : CmdResult :=
  if uint C = 0 then .raise .illegalOperand
  else completeRes0 nwords (modPow (uint A) (uint B) (uint C))

/-- The ENCSTEP command as a function of its operands (42_modexp.md R122): the range check comes before any
exponentiation, the check for n = 0 before it (60_exceptions.md R166). -/
def encstepCommand (nwords : Nat) (A B C : List Word) : CmdResult :=
  if uint C = 0 then .raise .illegalOperand
  else if uint C ≤ uint A then .raise .charTooLarge
  else completeRes0 nwords (modPow (uint A) (uint B) (uint C))

/-- The DECSTEP command as a function of its operands (42_modexp.md R123). -/
def decstepCommand (nwords : Nat) (A B C : List Word) : CmdResult :=
  if uint C = 0 then .raise .illegalOperand
  else if maxCodePoint < modPow (uint A) (uint B) (uint C) then .raise .invalidChar
  else completeRes0 nwords (modPow (uint A) (uint B) (uint C))

/-- MODEXP completes (10_state.md R35, 42_modexp.md R121). -/
def execModexp (s : State) : Host.Outcome State Fault Refusal :=
  .next (s.finish (modexpCommand s.cfg.nwords s.opa s.opb s.opc))

/-- ENCSTEP completes (10_state.md R35, 42_modexp.md R122). -/
def execEncstep (s : State) : Host.Outcome State Fault Refusal :=
  .next (s.finish (encstepCommand s.cfg.nwords s.opa s.opb s.opc))

/-- DECSTEP completes (10_state.md R35, 42_modexp.md R123). -/
def execDecstep (s : State) : Host.Outcome State Fault Refusal :=
  .next (s.finish (decstepCommand s.cfg.nwords s.opa s.opb s.opc))

end Sys2Proof.Machine
end

