-- ==== Sys2Proof/Machine/Egcd.lean ====
section
/-! DEFINITION. EGCD, the extended_gcd_unit (40_egcd.md). -/

namespace Sys2Proof.Machine

/-- The variables of EgcdCore (40_egcd.md R100). The remainders are never negative (R105), so they are naturals; the
coefficients are exact integers (R104). -/
structure EgcdVars where
  a : Nat
  b : Nat
  x1 : Int
  x2 : Int
  y1 : Int
  y2 : Int
deriving DecidableEq, Repr

/-- The variables at the start: "(x1,x2) and (y1,y2), initialized to (0,1) and (1,0)" (R100). -/
def egcdInit (a0 b0 : Nat) : EgcdVars := { a := a0, b := b0, x1 := 0, x2 := 1, y1 := 1, y2 := 0 }

/-- One turn of R100's loop. On naturals `/` is the truncating division of R105. -/
def egcdIter (v : EgcdVars) : EgcdVars where
  a := v.b
  b := v.a - v.a / v.b * v.b
  x1 := v.x2 - (v.a / v.b : Nat) * v.x1
  x2 := v.x1
  y1 := v.y2 - (v.a / v.b : Nat) * v.y1
  y2 := v.y1

/-- `while b != 0`, at most `fuel` times (R100). -/
def egcdLoop : Nat → EgcdVars → EgcdVars
  | 0, v => v
  | fuel + 1, v => if v.b = 0 then v else egcdLoop fuel (egcdIter v)

/-- EgcdCore (R100). The loop turns at most b0 + 1 times (R106), so that many turns of fuel always reach b = 0. -/
def egcdCore (a0 b0 : Nat) : Nat × Int × Int :=
  ((egcdLoop (b0 + 1) (egcdInit a0 b0)).a, (egcdLoop (b0 + 1) (egcdInit a0 b0)).x2,
    (egcdLoop (b0 + 1) (egcdInit a0 b0)).y2)

/-- The EGCD command as a function of its operands (40_egcd.md R101). -/
def egcdCommand (nwords : Nat) (A B : List Word) : CmdResult :=
  if uint B = 0 then .raise .illegalOperand
  else .complete
    { res0 := some (toWords nwords (egcdCore (uint A) (uint B)).1)
      res1 := some (twosComplement nwords (egcdCore (uint A) (uint B)).2.1)
      res2 := some (twosComplement nwords (egcdCore (uint A) (uint B)).2.2) }

/-- EGCD completes (10_state.md R35, 40_egcd.md R101). -/
def execEgcd (s : State) : Host.Outcome State Fault Refusal :=
  .next (s.finish (egcdCommand s.cfg.nwords s.opa s.opb))

end Sys2Proof.Machine
end

