-- ==== Sys2Proof/Machine/Modinv.lean ====
section
/-! DEFINITION. MODINV, the modular_inverse_solver (41_modinv.md). -/

namespace Sys2Proof.Machine

/-- "if x < 0, x ← x + phi" (41_modinv.md R110). -/
def canonicalResidue (x : Int) (phi : Nat) : Int := if x < 0 then x + phi else x

/-- The MODINV command as a function of its operands (41_modinv.md R110). The canonical residue is
never negative (R111), so `toNat` is that integer and `toWords` its zext_W. -/
def modinvCommand (nwords : Nat) (A B : List Word) : CmdResult :=
  if uint A = 0 ∨ uint B ≤ 1 then .raise .illegalOperand
  else if (egcdCore (uint A) (uint B)).1 ≠ 1 then .raise .noInverse
  else .complete
    { res0 := some (toWords nwords (canonicalResidue (egcdCore (uint A) (uint B)).2.1 (uint B)).toNat)
      res1 := none
      res2 := none }

/-- MODINV completes (10_state.md R35, 41_modinv.md R110). -/
def execModinv (s : State) : Host.Outcome State Fault Refusal :=
  .next (s.finish (modinvCommand s.cfg.nwords s.opa s.opb))

end Sys2Proof.Machine
end

