-- ==== Sys2Proof/Machine/Dispatch.lean ====
section
/-! DEFINITION. One arm per command: its completion (10_state.md R35). -/

namespace Sys2Proof.Machine

def exec (i : Instr) (s : State) : Host.Outcome State Fault Refusal :=
  match i with
  | .egcd => Sys2Proof.Machine.execEgcd s
  | .modinv => Sys2Proof.Machine.execModinv s
  | .modexp => Sys2Proof.Machine.execModexp s
  | .encstep => Sys2Proof.Machine.execEncstep s
  | .decstep => Sys2Proof.Machine.execDecstep s

end Sys2Proof.Machine
end

