-- ==== Sys2Proof/Machine/Engine.lean ====
section
/-! DEFINITION. The engine's step, one turn of any agent, and how a command word is put before the engine. -/

namespace Sys2Proof.Machine

/-- R72's `Execute` on a decoded command: a function of the operand values alone (10_state.md R35). -/
def commandResult (nwords : Nat) (i : Instr) (A B C : List Word) : CmdResult :=
  match i with
  | .egcd => egcdCommand nwords A B
  | .modinv => modinvCommand nwords A B
  | .modexp => modexpCommand nwords A B C
  | .encstep => encstepCommand nwords A B C
  | .decstep => decstepCommand nwords A B C

/-- R72's `Execute(cur, A, B, C)`, total over all command words. -/
def execute (nwords : Nat) (cur : Word) (A B C : List Word) : CmdResult :=
  match decodeWord cur with
  | .command i => commandResult nwords i A B C
  | .illegal _ => .raise .illegalOpcode

/-- The completion step for the latched word: a decoded command runs its meaning, any other word ends in
ILLEGAL_OPCODE (10_state.md R35, 30_encoding.md R72). -/
def State.runLatched (s : State) : Host.Outcome State Fault Refusal :=
  match decodeWord s.cur with
  | .command i => exec i s
  | .illegal _ => .next (s.finish (.raise .illegalOpcode))

/-- The engine's turn: completion is its one step, enabled only while BUSY = 1 (10_state.md R20), and a reset that is
asserted wins over it (60_exceptions.md R167). A turn with no step enabled changes nothing (60_exceptions.md R176). -/
def State.engineTurn (s : State) : Host.Outcome State Fault Refusal :=
  if s.resetAsserted then .next s
  else if s.busy then s.runLatched
  else .next s

/-- One move of one agent. -/
def State.takeTurn (t : Turn) (s : State) : Host.Outcome State Fault Refusal :=
  match t with
  | .access a => s.access a
  | .engine => s.engineTurn
  | .resetPin level => .next (s.driveReset level)

/-- The next listed move, taken by its agent; when the list is empty only the engine can still move, so that a command
in flight completes (10_state.md R35: completion is weakly fair; log 3). -/
def State.nextTurn (s : State) : Host.Outcome State Fault Refusal :=
  match s.turns with
  | [] => s.engineTurn
  | t :: rest => State.takeTurn t { s with turns := rest }

/-- The word `w` of `nbits` bits latched as by a start (10_state.md R34), reset released, and the engine to move next:
the very next step runs it (log 12). -/
def State.presentWord (nbits w : Nat) (s : State) : State :=
  { s.start (BitVec.ofNat 32 (w % 2 ^ nbits)) with resetAsserted := false, turns := .engine :: s.turns }

end Sys2Proof.Machine
end

