-- ==== Sys2Proof/Machine/Step.lean ====
section
/-! DEFINITION. The step of the machine. -/

namespace Sys2Proof.Machine

/-- One move of the block, its host or its reset pin (10_state.md R20, 20_memory.md R59). -/
def step (s : State) : Host.Outcome State Fault Refusal := s.nextTurn

/-- The state in which the next step runs the command word `w`: the block fetches nothing (10_state.md R25), so the word
is put where a start latches it, in CUR (log 12). -/
def State.withFetchWord (s : State) (nbits w : Nat) : State := s.presentWord nbits w

end Sys2Proof.Machine
end

