-- ==== Sys2Proof/Machine/Procedures.lean ====
section
/-! DEFINITION. The host's side: the program notation as bus transactions (30_encoding.md R78, R79) and the host
procedures (43_host_procedures.md) as functions over the machine's accesses. They add no block state (R140). -/

namespace Sys2Proof.Machine

/-- `WR off, v` (30_encoding.md R78). -/
def wr (c : Config) (off : Nat) (v : Word) : Turn := .access { kind := .write v, addr := c.base + off, width := 32 }

/-- `RD off` (R78). -/
def rd (c : Config) (off : Nat) : Turn := .access { kind := .read, addr := c.base + off, width := 32 }

/-- The writes of some words of a register, from word k up. -/
def wrwFrom (c : Config) (r : DataReg) : Nat → List Word → List Turn
  | _, [] => []
  | k, w :: ws => wr c (r.base + 4 * k) w :: wrwFrom c r (k + 1) ws

/-- `WRW R, v` (R79), for v < 2^W. For v >= 2^W, which 00_scope.md R6 puts outside any model, the words written are
those of v mod 2^W: DESIGN CHOICE (log 17). -/
def wrw (c : Config) (r : DataReg) (v : Nat) : List Turn := wrwFrom c r 0 (toWords c.nwords v)

/-- The reads of `n` words of a register, from word k up. -/
def rdwFrom (c : Config) (r : DataReg) : Nat → Nat → List Turn
  | _, 0 => []
  | k, n + 1 => rd c (r.base + 4 * k) :: rdwFrom c r (k + 1) n

/-- `RDW R` (R79); `RDS R` has the same transactions. -/
def rdw (c : Config) (r : DataReg) : List Turn := rdwFrom c r 0 c.nwords

/-- `POLL` (R78) when `k` of its reads take effect before the engine moves: they see BUSY = 1 if a command is in
flight. -/
def pollTurns (c : Config) (k : Nat) : List Turn :=
  List.replicate k (rd c 0x0008) ++ [.engine, rd c 0x0008]

/-- `RUN <command>` (R79) when `k` of the polls see BUSY = 1. -/
def runTurns (c : Config) (word : Word) (k : Nat) : List Turn := wr c 0x0004 word :: pollTurns c k

/-- The operand writes of `RunCmd` (43_host_procedures.md R141), only those the command reads. -/
def operandTurns (c : Config) (a b : Nat) (n : Option Nat) : List Turn :=
  match n with
  | some v => wrw c .opa a ++ (wrw c .opb b ++ wrw c .opc v)
  | none => wrw c .opa a ++ wrw c .opb b

/-- `RunCmd` (43_host_procedures.md R141) as bus transactions, up to and with CHECK; before the engine moves, `j` reads
of the first POLL and `k` of the POLL after the start have taken place. -/
def runCmdTurns (c : Config) (word : Word) (a b : Nat) (n : Option Nat) (j k : Nat) : List Turn :=
  pollTurns c j ++ (operandTurns c a b n ++ (runTurns c word k ++ [rd c 0x0008]))

/-- One element of a codec sequence up to and with CHECK: `WRW OPA, m ; RUN <command> ; CHECK` (43_host_procedures.md
R146, R147). -/
def elementTurns (c : Config) (word : Word) (m k : Nat) : List Turn :=
  wrw c .opa m ++ (runTurns c word k ++ [rd c 0x0008])

/-- The elements of a codec sequence that end without error, each with its number of polls: after CHECK the host reads
RES0 (R146, R147). -/
def codecTurns (c : Config) (word : Word) : List (Nat × Nat) → List Turn
  | [] => []
  | (m, k) :: els => elementTurns c word m k ++ (rdw c .res0 ++ codecTurns c word els)

/-- The writes before the first element: `WRW OPB, e ; WRW OPC, n` (R146, R147). -/
def keyTurns (c : Config) (e n : Nat) : List Turn := wrw c .opb e ++ wrw c .opc n

/-- A read of `n` words of a register, from word k up. -/
def State.readWords (s : State) (r : DataReg) : Nat → Nat → List Word
  | _, 0 => []
  | k, n + 1 => s.busRead (r.base + 4 * k) :: s.readWords r (k + 1) n

/-- `RDW R -> h` (R79). -/
def State.readReg (s : State) (r : DataReg) : Nat := uint (s.readWords r 0 s.cfg.nwords)

/-- `RDS R -> h` (R79). -/
def State.readSigned (s : State) (r : DataReg) : Int := sint (s.readWords r 0 s.cfg.nwords)

/-- A write of some words of a register, from word k up. -/
def writeWords (r : DataReg) : Nat → List Word → State → State
  | _, [], s => s
  | k, w :: ws, s => writeWords r (k + 1) ws (s.busWrite (r.base + 4 * k) w)

/-- `WRW R, v` (R79), for v < 2^W. For v >= 2^W it writes v mod 2^W, and so does every host procedure that calls it:
DESIGN CHOICE (log 17). -/
def writeReg (r : DataReg) (v : Nat) (s : State) : State := writeWords r 0 (toWords s.cfg.nwords v) s

/-- The completion of the latched command (10_state.md R35). -/
def State.complete (s : State) : State := s.finish (execute s.cfg.nwords s.cur s.opa s.opb s.opc)

/-- What `POLL` leaves (R78): reads change nothing, and it ends once a command in flight has completed (log 13). -/
def State.poll (s : State) : State := if s.busy then s.complete else s

/-- `RUN <command>` (R79). -/
def State.runCommand (word : Word) (s : State) : State := (s.busWrite 0x0004 word).poll

/-- `CHECK -> err` (R79): bits 7:4 of STATUS. -/
def State.check (s : State) : BitVec 4 := (s.busRead 0x0008).extractLsb' 4 4

/-- What `RunCmd` returns (43_host_procedures.md R141). -/
inductive CmdReply where
  | ok (r0 : Nat) (r1 r2 : Int)
  | fail (code : BitVec 4)
deriving DecidableEq, Repr

/-- The source's errors (43_host_procedures.md R150, R144, R145). -/
inductive SourceError where
  | noInverseExists
  | characterTooLarge
  | invalidCharacterValue
  | noValidExponentFound
  | degenerateKeyPair
deriving DecidableEq, Repr

/-- What a host procedure returns: a value, one of the source's errors, or `Fail(err)`. -/
inductive ProcReply (α : Type) where
  | ok (a : α)
  | error (e : SourceError)
  | fail (code : BitVec 4)
deriving DecidableEq, Repr

/-- The host's map from STATUS.ERR to the source's taxonomy (R150); the other codes are programming errors. -/
def sourceErrorOf (code : BitVec 4) : Option SourceError :=
  if code = 3 then some .noInverseExists
  else if code = 4 then some .characterTooLarge
  else if code = 5 then some .invalidCharacterValue
  else none

/-- A failed command as the caller sees it (R150). -/
def failReply {α : Type} (code : BitVec 4) : ProcReply α :=
  match sourceErrorOf code with
  | some e => .error e
  | none => .fail code

/-- The operands of `RunCmd`: it writes only those the command reads (R141). -/
def writeOperands (a b : Nat) (n : Option Nat) (s : State) : State :=
  match n with
  | some v => writeReg .opc v (writeReg .opb b (writeReg .opa a s))
  | none => writeReg .opb b (writeReg .opa a s)

/-- The end of `RunCmd`, from CHECK on (R141). -/
def State.reply (s : State) : CmdReply :=
  if s.check = 0 then .ok (s.readReg .res0) (s.readSigned .res1) (s.readSigned .res2) else .fail s.check

/-- `RunCmd(word, A, B, C)` (R141); `none` is an operand the command does not read. -/
def runCmd (word : Word) (a b : Nat) (n : Option Nat) (s : State) : CmdReply × State :=
  (((writeOperands a b n s.poll).runCommand word).reply, (writeOperands a b n s.poll).runCommand word)

/-- `egcd(a, b)` (R142). -/
def procEgcd (a b : Nat) (s : State) : ProcReply (Nat × Int × Int) × State :=
  match runCmd (encode .egcd) a b none s with
  | (.ok g x y, t) => (.ok (g, x, y), t)
  | (.fail code, t) => (failReply code, t)

/-- `mod_inverse(e, phi)` (R142). -/
def procModInverse (e phi : Nat) (s : State) : ProcReply Nat × State :=
  match runCmd (encode .modinv) e phi none s with
  | (.ok d _ _, t) => (.ok d, t)
  | (.fail code, t) => (failReply code, t)

/-- The candidates from `e` on, at most `fuel` of them looked at (R143). -/
def exponentsFrom (phi : Nat) : Nat → Nat → State → ProcReply (List Nat) × State
  | 0, _, s => (.ok [], s)
  | fuel + 1, e, s =>
    if e < phi then
      match procEgcd e phi s with
      | (.ok (g, _, _), t) =>
        match exponentsFrom phi fuel (e + 2) t with
        | (.ok seq, u) => (.ok (if g = 1 ∧ e ≠ phi - 1 then e :: seq else seq), u)
        | (.error err, u) => (.error err, u)
        | (.fail code, u) => (.fail code, u)
      | (.error err, t) => (.error err, t)
      | (.fail code, t) => (.fail code, t)
    else (.ok [], s)

/-- `generate_valid_exponents(phi)` (R143): from 7, in steps of 2, while below phi; fewer than phi candidates. -/
def generateValidExponents (phi : Nat) (s : State) : ProcReply (List Nat) × State := exponentsFrom phi phi 7 s

/-- The first candidate from `e` on (R144), looked for lazily as R143 allows (log 13). -/
def firstExponentFrom (phi : Nat) : Nat → Nat → State → ProcReply Nat × State
  | 0, _, s => (.error .noValidExponentFound, s)
  | fuel + 1, e, s =>
    if e < phi then
      match procEgcd e phi s with
      | (.ok (g, _, _), t) => if g = 1 ∧ e ≠ phi - 1 then (.ok e, t) else firstExponentFrom phi fuel (e + 2) t
      | (.error err, t) => (.error err, t)
      | (.fail code, t) => (.fail code, t)
    else (.error .noValidExponentFound, s)

/-- The exponent key assembly selects (R144). -/
def selectExponent (phi : Nat) (s : State) : ProcReply Nat × State := firstExponentFrom phi phi 7 s

/-- The two keys: (e, n) public, (d, n) private (R145). -/
structure KeyPair where
  e : Nat
  d : Nat
  n : Nat
deriving DecidableEq, Repr

/-- Steps 4 to 6 of key assembly (R145). -/
def keyFromExponent (n phi e : Nat) (s : State) : ProcReply KeyPair × State :=
  match procModInverse e phi s with
  | (.ok d, t) => (if d = e then .error .degenerateKeyPair else .ok { e := e, d := d, n := n }, t)
  | (.error err, t) => (.error err, t)
  | (.fail code, t) => (.fail code, t)

/-- Key assembly from two primes (R145); the host computes n and phi in its own arithmetic. -/
def assembleKeys (p q : Nat) (s : State) : ProcReply KeyPair × State :=
  match selectExponent ((p - 1) * (q - 1)) s with
  | (.ok e, t) => keyFromExponent (p * q) ((p - 1) * (q - 1)) e t
  | (.error err, t) => (.error err, t)
  | (.fail code, t) => (.fail code, t)

/-- One element of a codec sequence: `WRW OPA, m ; RUN <command>` (R146, R147). -/
def stepElement (word : Word) (m : Nat) (s : State) : State := (writeReg .opa m s).runCommand word

/-- The loop of `encrypt` and `decrypt` (R146, R147): the first error ends it and the output so far is discarded. -/
def codecLoop (word : Word) : List Nat → State → ProcReply (List Nat) × State
  | [], s => (.ok [], s)
  | m :: ms, s =>
    if (stepElement word m s).check = 0 then
      match codecLoop word ms (stepElement word m s) with
      | (.ok out, t) => (.ok ((stepElement word m s).readReg .res0 :: out), t)
      | (.error err, t) => (.error err, t)
      | (.fail code, t) => (.fail code, t)
    else (failReply (stepElement word m s).check, stepElement word m s)

/-- `encrypt(text, e, n)` on code points (R146). -/
def encrypt (cps : List Nat) (e n : Nat) (s : State) : ProcReply (List Nat) × State :=
  codecLoop (encode .encstep) cps (writeReg .opc n (writeReg .opb e s))

/-- `decrypt(ciphertext, d, n)` to code points (R147). -/
def decrypt (cs : List Nat) (d n : Nat) (s : State) : ProcReply (List Nat) × State :=
  codecLoop (encode .decstep) cs (writeReg .opc n (writeReg .opb d s))

end Sys2Proof.Machine
end

