-- ==== Sys2Proof/Safety.lean ====
section
/-! DEFINITION. The invariant of the block's state, and the conditions claims put on a state and on what is to come. -/

namespace Sys2Proof.Machine

/-- What every state of a run satisfies. -/
structure State.Inv (s : State) : Prop where
  /-- The parameters are in the ranges of 00_scope.md R6. -/
  cfgWf : s.cfg.wf = true
  /-- Every data register has NWORDS words (10_state.md R21, 20_memory.md R54). -/
  regLen : ∀ r, (s.getReg r).length = s.cfg.nwords
  /-- "BUSY = 1 and DONE = 1 never hold together" (10_state.md R28). -/
  busyNotDone : s.busy = true → s.done = false
  /-- A start clears ERR (10_state.md R34) and only a completion sets it. -/
  busyNoErr : s.busy = true → s.err = 0
  /-- Codes 6 to 15 are never produced (60_exceptions.md R160). -/
  errKnown : s.err.toNat ≤ 5
  /-- While reset is asserted every piece of state has its reset value (70_reset_and_hazards.md R190). -/
  resetHeld : s.resetAsserted = true → s.resetBlock = s

/-- The block can take a start: no command in flight and no reset asserted (00_scope.md R11, 70_reset_and_hazards.md
R190). -/
structure State.Ready (s : State) : Prop where
  idle : s.busy = false
  released : s.resetAsserted = false

/-- The operand and register sizes a driver relies on: the part of the invariant the procedures need. -/
structure State.Sized (s : State) : Prop where
  cfgWf : s.cfg.wf = true
  regLen : ∀ r, (s.getReg r).length = s.cfg.nwords

/-- The state with its next move taken off the list: what the agent that moves sees. -/
def State.popTurn (s : State) : State := { s with turns := s.turns.tail }

/-- The engine moves next: its turn heads the list, or the list is empty. -/
def State.engineNext (s : State) : Bool :=
  match s.turns with
  | [] => true
  | .engine :: _ => true
  | .access _ :: _ => false
  | .resetPin _ :: _ => false

/-- The next move is a host access to the window, and this one. -/
def State.accessNext (s : State) (k : AccessKind) (width off : Nat) : Prop :=
  off < Config.windowSize ∧
    s.turns.head? = some (.access { kind := k, addr := s.cfg.base + off, width := width })

/-- The next move is a reset: the pin takes the level that asserts, or leaves it while reset is held
(70_reset_and_hazards.md R190), or the host writes SRST = 1 to CTRL (R191). -/
def State.resetNext (s : State) : Prop :=
  s.turns.head? = some (.resetPin s.cfg.resetActiveHigh) ∨
  (s.resetAsserted = true ∧ ∃ level, s.turns.head? = some (.resetPin level)) ∨
  ∃ v : Word, s.accessNext (.write v) 32 0x0000 ∧ s.resetAsserted = false ∧ v.getLsbD 1 = true

/-- A move that neither stops the model nor cancels the command in flight: the engine's turn, or an access inside the
window that does not write SRST = 1 to CTRL (a soft reset cancels, 70_reset_and_hazards.md R191). -/
def Turn.keepsCommand (c : Config) : Turn → Bool
  | .engine => true
  | .resetPin _ => false
  | .access a =>
    Config.decodes c a.addr &&
      match a.kind with
      | .read => true
      | .write v => !(accepted a.width (a.addr - c.base) && a.addr - c.base == 0 && v.getLsbD 1)

/-- A valid candidate exponent (43_host_procedures.md R143; glossary of 00_scope.md R12). -/
def IsCandidate (phi e : Nat) : Prop :=
  e % 2 = 1 ∧ 7 ≤ e ∧ e < phi ∧ Nat.gcd e phi = 1 ∧ e ≠ phi - 1

/-- The first candidate (43_host_procedures.md R144). -/
def IsFirstCandidate (phi e : Nat) : Prop := IsCandidate phi e ∧ ∀ e', IsCandidate phi e' → e ≤ e'

/-- The offset names no register of an instance of `n` words (20_memory.md R55, R56). -/
def Unmapped (n off : Nat) : Prop :=
  off ≠ 0 ∧ off ≠ 4 ∧ off ≠ 8 ∧ off ≠ 12 ∧ ∀ (r : DataReg) (k : Nat), k < n → off ≠ r.base + 4 * k

end Sys2Proof.Machine
end

