-- ==== Sys2Proof/Certificates/Slice0/Obligations.lean ====
section
/-! DEFINITION. The statements for the provers. Each docstring says which rule of spec/ it formalises. -/

open Sys2Proof Sys2Proof.Machine

/-! ### Encoding -/

/-- 30_encoding.md R71, row by row: the five command words, and the reserved opcodes 0x0 and 0x6 to 0xF. -/
def Obligations.CommandWordsDecodeAsTheMapSays : Prop :=
  decodeWord 0x00000001#32 = .command .egcd ∧
  decodeWord 0x00000002#32 = .command .modinv ∧
  decodeWord 0x00000003#32 = .command .modexp ∧
  decodeWord 0x00000004#32 = .command .encstep ∧
  decodeWord 0x00000005#32 = .command .decstep ∧
  decodeWord 0x00000000#32 = .illegal .reservedOpcode ∧
  ∀ op : Nat, 6 ≤ op → op ≤ 15 → decodeWord (BitVec.ofNat 32 op) = .illegal .reservedOpcode

/-- Decoding the bytes of an encoded command gives it back, with the bytes after it untouched; so does the table's
decoder (30_encoding.md R70, R71, R77). -/
def Obligations.EncodedBytesDecodeBack : Prop :=
  ∀ (i : Instr) (rest : List Byte), i.wf = true →
    decodeBytes (encodeBytes i ++ rest) = (.command i, rest) ∧ decodeTableWord 32 (encode i).toNat = some i

/-- Every run of bytes and every word has one reading: a command exactly when it is that command's encoding, otherwise
illegal for the stated reason (30_encoding.md R72, R76). -/
def Obligations.OnlyTheCommandWordsDecode : Prop :=
  (∀ (w : Word) (i : Instr), decodeWord w = .command i ↔ w = encode i) ∧
  (∀ w : Word, rsvField w ≠ 0 → decodeWord w = .illegal .reservedBitsSet) ∧
  (∀ w : Word, rsvField w = 0 → (opField w = 0 ∨ 6 ≤ (opField w).toNat) → decodeWord w = .illegal .reservedOpcode) ∧
  (∀ (bs rest : List Byte) (i : Instr), decodeBytes bs = (.command i, rest) ↔ bs = encodeBytes i ++ rest)

/-! ### The step -/

/-- The engine's step runs the command the latched word decodes to (10_state.md R35, 30_encoding.md R72). -/
def Obligations.EngineStepRunsTheDecodedCommand : Prop :=
  ∀ (s : State) (i : Instr), s.engineNext = true → s.busy = true → s.resetAsserted = false →
    decodeWord s.cur = .command i → step s = exec i s.popTurn

/-- Model's choice (log 12): a word presented to the engine runs in the very next step, on the state a start leaves. -/
def Obligations.PresentedWordRunsNext : Prop :=
  ∀ (s : State) (i : Instr),
    step (s.withFetchWord 32 (encode i).toNat) = exec i { s.start (encode i) with resetAsserted := false }

/-- 10_state.md R35, the completion step: results by Execute, written only without error; BUSY, DONE and ERR as
stated; nothing else changes (that CUR stays is the model's reading, log 9). -/
def Obligations.CompletionWritesExecuteResults : Prop :=
  ∀ s : State, s.engineNext = true → s.busy = true → s.resetAsserted = false →
    ∃ t, step s = .next t ∧ t.busy = false ∧ t.done = true ∧
      t.err = (execute s.cfg.nwords s.cur s.opa s.opb s.opc).code ∧
      (∀ e, execute s.cfg.nwords s.cur s.opa s.opb s.opc = .raise e →
        t.res0 = s.res0 ∧ t.res1 = s.res1 ∧ t.res2 = s.res2) ∧
      (∀ w, execute s.cfg.nwords s.cur s.opa s.opb s.opc = .complete w →
        t.res0 = w.res0.getD s.res0 ∧ t.res1 = w.res1.getD s.res1 ∧ t.res2 = w.res2.getD s.res2) ∧
      t.cfg = s.cfg ∧ t.opa = s.opa ∧ t.opb = s.opb ∧ t.opc = s.opc ∧ t.ie = s.ie ∧ t.wbusy = s.wbusy ∧
      t.cur = s.cur ∧ t.resetAsserted = s.resetAsserted ∧ t.turns = s.turns.tail ∧ t.responses = s.responses

/-- 30_encoding.md R76: every illegal encoding completes with ILLEGAL_OPCODE and changes no result register. -/
def Obligations.IllegalWordsCompleteWithIllegalOpcode : Prop :=
  ∀ s : State, s.engineNext = true → s.busy = true → s.resetAsserted = false →
    (opField s.cur = 0 ∨ 6 ≤ (opField s.cur).toNat ∨ rsvField s.cur ≠ 0) →
    step s = .next { s.popTurn with busy := false, done := true, err := 1 }

/-- Completion is enabled only while BUSY = 1 (10_state.md R20), not while reset is asserted (60_exceptions.md R167);
an idle block does nothing (60_exceptions.md R176). -/
def Obligations.EngineWithoutCommandChangesNothing : Prop :=
  ∀ s : State, s.engineNext = true → (s.busy = false ∨ s.resetAsserted = true) → step s = .next s.popTurn

/-- Where the model stops: exactly on a host access outside the window (the model's fault, log 6) or to the window
while reset is asserted (the refusal of 70_reset_and_hazards.md R190). -/
def Obligations.StepStopsOnlyOnForbiddenAccess : Prop :=
  ∀ s : State,
    ((∃ t, step s = .next t) ↔
      ∀ a, s.turns.head? = some (.access a) → Config.decodes s.cfg a.addr = true ∧ s.resetAsserted = false) ∧
    (∀ a, s.turns.head? = some (.access a) →
      (Config.decodes s.cfg a.addr = false → step s = .fault .outsideWindow) ∧
      (Config.decodes s.cfg a.addr = true → s.resetAsserted = true → step s = .refused .accessDuringReset))

/-! ### The register window -/

/-- 10_state.md R34: a start, whatever the word; irq goes low. -/
def Obligations.StartLatchesAnyWord : Prop :=
  ∀ (s : State) (v : Word), s.accessNext (.write v) 32 0x0004 → s.resetAsserted = false → s.busy = false →
    ∃ t, step s = .next t ∧
      t = { s.popTurn with cur := v, busy := true, done := false, err := 0, responses := .writeOk :: s.responses } ∧
      t.irq = false

/-- 10_state.md R36: what is dropped while busy and sets WBUSY; what acts normally; what is ignored, busy or not. -/
def Obligations.WritesWhileBusyAreDropped : Prop :=
  ∀ (s : State) (off : Nat) (v : Word), s.cfg.wf = true → s.accessNext (.write v) 32 off →
    s.resetAsserted = false →
    (s.busy = true →
      (off = 0x0004 ∨ ∃ (r : DataReg) (k : Nat), r.isOperand = true ∧ k < s.cfg.nwords ∧ off = r.base + 4 * k) →
      step s = .next { s.popTurn with wbusy := true, responses := .writeOk :: s.responses }) ∧
    (s.busy = true → off = 0x0000 →
      step s = .next (if v.getLsbD 1 then { s.popTurn.resetBlock with responses := .writeOk :: s.responses }
        else { s.popTurn with ie := v.getLsbD 0, responses := .writeOk :: s.responses })) ∧
    (s.busy = true → off = 0x0008 →
      step s = .next { s.popTurn with
        done := s.done && !v.getLsbD 1, wbusy := s.wbusy && !v.getLsbD 2, responses := .writeOk :: s.responses }) ∧
    ((off = 0x000C ∨ (∃ (r : DataReg) (k : Nat), r.isOperand = false ∧ k < s.cfg.nwords ∧ off = r.base + 4 * k) ∨
        (∃ (r : DataReg) (k : Nat), s.cfg.nwords ≤ k ∧ k < 256 ∧ off = r.base + 4 * k)) →
      step s = .next { s.popTurn with responses := .writeOk :: s.responses })

/-- 10_state.md R39, the whole table: what every aligned 32-bit access reads and does, idle and busy. -/
def Obligations.HostAccessTable : Prop :=
  ∀ (s : State) (off : Nat), s.cfg.wf = true → s.resetAsserted = false → off % 4 = 0 →
    (s.accessNext .read 32 off →
      ∃ d : Word, step s = .next { s.popTurn with responses := .readOk d :: s.responses } ∧
        (off = 0x0000 → d.toNat = s.ie.toNat) ∧
        (off = 0x0004 → d = 0) ∧
        (off = 0x0008 → d.toNat = s.busy.toNat + 2 * s.done.toNat + 4 * s.wbusy.toNat + 16 * s.err.toNat) ∧
        (off = 0x000C → d.toNat = s.cfg.nwords) ∧
        (∀ (r : DataReg) (k : Nat), k < s.cfg.nwords → off = r.base + 4 * k → d = wordAt (s.getReg r) k) ∧
        (Unmapped s.cfg.nwords off → d = 0)) ∧
    (∀ v : Word, s.accessNext (.write v) 32 off →
      ∃ t : State, step s = .next { t with responses := .writeOk :: s.responses } ∧
        (off = 0x0000 → v.getLsbD 1 = true → t = s.popTurn.resetBlock) ∧
        (off = 0x0000 → v.getLsbD 1 = false → t = { s.popTurn with ie := v.getLsbD 0 }) ∧
        (off = 0x0004 → s.busy = false → t = { s.popTurn with cur := v, busy := true, done := false, err := 0 }) ∧
        (off = 0x0004 → s.busy = true → t = { s.popTurn with wbusy := true }) ∧
        (off = 0x0008 →
          t = { s.popTurn with done := s.done && !v.getLsbD 1, wbusy := s.wbusy && !v.getLsbD 2 }) ∧
        (off = 0x000C → t = s.popTurn) ∧
        (∀ (r : DataReg) (k : Nat), k < s.cfg.nwords → off = r.base + 4 * k →
          (r.isOperand = true → s.busy = false → t = s.popTurn.setReg r (putWord (s.getReg r) k v)) ∧
          (r.isOperand = true → s.busy = true → t = { s.popTurn with wbusy := true }) ∧
          (r.isOperand = false → t = s.popTurn)) ∧
        (Unmapped s.cfg.nwords off → t = s.popTurn))

/-- 20_memory.md R51, R52: any other access to the window gets a bus error, read data 0, and changes no state. That an
access which begins in the window and ends outside it is such an access is the model's reading (log 5). -/
def Obligations.OtherAccessesGetABusError : Prop :=
  ∀ (s : State) (width off : Nat), (width ≠ 32 ∨ off % 4 ≠ 0) → s.resetAsserted = false →
    (s.accessNext .read width off → step s = .next { s.popTurn with responses := .readError 0 :: s.responses }) ∧
    (∀ v, s.accessNext (.write v) width off → step s = .next { s.popTurn with responses := .writeError :: s.responses })

/-- 10_state.md R26: CTRL reads IE in bit 0 and 0 elsewhere; a write resets the block or sets IE, idle or busy. -/
def Obligations.ControlRegister : Prop :=
  ∀ s : State,
    ((s.busRead 0x0000).getLsbD 0 = s.ie ∧ (s.busRead 0x0000).getLsbD 1 = false ∧
      (s.busRead 0x0000).extractLsb' 2 30 = 0#30) ∧
    ∀ v : Word, s.accessNext (.write v) 32 0x0000 → s.resetAsserted = false →
      (v.getLsbD 1 = true → ∃ t, step s = .next t ∧ t.ie = false ∧ t.busy = false ∧ t.done = false ∧ t.wbusy = false ∧
        t.err = 0 ∧ t.cur = 0 ∧ (∀ r, uint (t.getReg r) = 0) ∧ t.cfg = s.cfg) ∧
      (v.getLsbD 1 = false →
        step s = .next { s.popTurn with ie := v.getLsbD 0, responses := .writeOk :: s.responses })

/-- 10_state.md R28: the fields of STATUS as read; a write acts on bits 1 and 2 only, idle or busy; BUSY and DONE never
hold together in a state of the invariant. -/
def Obligations.StatusRegister : Prop :=
  ∀ s : State,
    ((s.busRead 0x0008).getLsbD 0 = s.busy ∧ (s.busRead 0x0008).getLsbD 1 = s.done ∧
      (s.busRead 0x0008).getLsbD 2 = s.wbusy ∧ (s.busRead 0x0008).getLsbD 3 = false ∧
      (s.busRead 0x0008).extractLsb' 4 4 = s.err ∧ (s.busRead 0x0008).extractLsb' 8 24 = 0#24) ∧
    (∀ v : Word, s.accessNext (.write v) 32 0x0008 → s.resetAsserted = false →
      step s = .next { s.popTurn with
        done := s.done && !v.getLsbD 1, wbusy := s.wbusy && !v.getLsbD 2, responses := .writeOk :: s.responses }) ∧
    (s.Inv → ¬(s.busy = true ∧ s.done = true))

/-- 10_state.md R29: PARAM reads NWORDS in bits 15:0 and 0 above, ignores writes, and is the same after reset. -/
def Obligations.ParamRegister : Prop :=
  ∀ s : State, s.cfg.wf = true →
    ((s.busRead 0x000C).extractLsb' 0 16).toNat = s.cfg.width / 32 ∧ (s.busRead 0x000C).extractLsb' 16 16 = 0#16 ∧
    (∀ v, s.busWrite 0x000C v = s) ∧ s.resetBlock.busRead 0x000C = s.busRead 0x000C

/-- 10_state.md R31, 60_exceptions.md R165: irq is a level. Completion raises it while enabled, setting IE raises it at
once if DONE is set, and writing 1 to DONE, a start, a reset, or clearing IE lowers it; WBUSY does not touch it. -/
def Obligations.InterruptIsALevel : Prop :=
  ∀ s : State,
    (s.irq = true ↔ s.ie = true ∧ s.done = true) ∧
    (s.complete.done = true ∧ s.complete.irq = s.ie) ∧
    (∀ v : Word, v.getLsbD 1 = false → (s.busWrite 0x0000 v).irq = (v.getLsbD 0 && s.done)) ∧
    (∀ v : Word, v.getLsbD 1 = true → (s.busWrite 0x0008 v).irq = false) ∧
    (∀ v : Word, v.getLsbD 1 = false → (s.busWrite 0x0008 v).irq = s.irq) ∧
    (∀ v : Word, s.busy = false → (s.busWrite 0x0004 v).irq = false) ∧
    (∀ v : Word, s.busy = true → (s.busWrite 0x0004 v).irq = s.irq) ∧
    s.resetBlock.irq = false

/-- 10_state.md R22: a host write to one word of an operand register changes only that word's 32 bits, at once. -/
def Obligations.OperandWriteChangesOneWord : Prop :=
  ∀ (s : State) (r : DataReg) (k : Nat) (v : Word), s.Sized → k < s.cfg.nwords → r.isOperand = true →
    s.accessNext (.write v) 32 (r.base + 4 * k) → s.resetAsserted = false → s.busy = false →
    ∃ t, step s = .next t ∧ wordAt (t.getReg r) k = v ∧ (∀ j, j ≠ k → wordAt (t.getReg r) j = wordAt (s.getReg r) j) ∧
      (t.getReg r).length = (s.getReg r).length ∧ (∀ q, q ≠ r → t.getReg q = s.getReg q) ∧
      t.cfg = s.cfg ∧ t.ie = s.ie ∧ t.busy = s.busy ∧ t.done = s.done ∧ t.wbusy = s.wbusy ∧ t.err = s.err ∧
      t.cur = s.cur ∧ t.resetAsserted = s.resetAsserted ∧ t.turns = s.turns.tail ∧
      t.responses = .writeOk :: s.responses

/-- 20_memory.md R54: word k at B + 4k holds bits [32k+31:32k]; writing every word writes the value; words may be
written in any order; a word that is not written keeps its bits. -/
def Obligations.RegisterWordsAreLittleEndian : Prop :=
  (∀ (s : State) (r : DataReg) (k : Nat), s.Sized → k < s.cfg.nwords →
    (s.busRead (r.base + 4 * k)).toNat = uint (s.getReg r) / 2 ^ (32 * k) % 2 ^ 32) ∧
  (∀ (s : State) (r : DataReg), s.Sized → s.readReg r = uint (s.getReg r)) ∧
  (∀ (s : State) (r : DataReg) (v : Nat), s.Sized → r.isOperand = true → s.busy = false → v < 2 ^ s.cfg.width →
    uint ((writeReg r v s).getReg r) = v ∧ ∀ q, q ≠ r → (writeReg r v s).getReg q = s.getReg q) ∧
  (∀ (s : State) (r : DataReg) (j k : Nat) (v w : Word), s.Sized → j < s.cfg.nwords → k < s.cfg.nwords → j ≠ k →
    (s.busWrite (r.base + 4 * j) v).busWrite (r.base + 4 * k) w =
      (s.busWrite (r.base + 4 * k) w).busWrite (r.base + 4 * j) v) ∧
  (∀ (s : State) (r : DataReg) (j k : Nat) (v : Word), s.Sized → j < s.cfg.nwords → k < s.cfg.nwords → j ≠ k →
    (s.busWrite (r.base + 4 * k) v).busRead (r.base + 4 * j) = s.busRead (r.base + 4 * j))

/-- 20_memory.md R53: byte 4j + k of the window carries bits [8k+7:8k] of word j. -/
def Obligations.ByteLanesAreLittleEndian : Prop :=
  ∀ (s : State) (j k : Nat), k < 4 →
    (s.windowByte (4 * j + k)).toNat = (s.busRead (4 * j)).toNat / 2 ^ (8 * k) % 2 ^ 8

/-! ### Reset -/

/-- 10_state.md R33, the table: after a soft reset of any state (70_reset_and_hazards.md R191), after a hardware reset
when it is asserted and again when it is released (R190), and in State.reset, whose parameters are the model's choice
(W = 64: log 1; BASE 0 and an active-low pin: log 2). -/
def Obligations.ResetLeavesTheTableValues : Prop :=
  let table (c : Config) (t : State) : Prop :=
    (∀ r, t.getReg r = List.replicate c.nwords 0#32 ∧ uint (t.getReg r) = 0) ∧ t.ie = false ∧ t.busy = false ∧
      t.done = false ∧ t.wbusy = false ∧ t.err = 0 ∧ t.cur = 0 ∧ t.irq = false ∧ t.cfg = c ∧
      t.busRead 0x000C = paramWord c.nwords
  (∀ (s : State) (v : Word), s.accessNext (.write v) 32 0x0000 → s.resetAsserted = false → v.getLsbD 1 = true →
    ∃ t, step s = .next t ∧ table s.cfg t) ∧
  (∀ s : State, s.turns.head? = some (.resetPin s.cfg.resetActiveHigh) → ∃ t, step s = .next t ∧ table s.cfg t) ∧
  (∀ s : State, s.resetAsserted = true → s.turns.head? = some (.resetPin !s.cfg.resetActiveHigh) →
    ∃ t, step s = .next t ∧ table s.cfg t) ∧
  table Config.reference State.reset

/-- 70_reset_and_hazards.md R191: a soft reset, one step, everything at its reset value, a command in flight abandoned,
a normal bus response, SRST reading 0 afterwards. -/
def Obligations.SoftResetAbandonsTheCommand : Prop :=
  ∀ (s : State) (v : Word), s.accessNext (.write v) 32 0x0000 → s.resetAsserted = false → v.getLsbD 1 = true →
    ∃ t, step s = .next t ∧
      t = { State.resetOf s.cfg with turns := s.turns.tail, responses := .writeOk :: s.responses } ∧
      (t.busRead 0x0000).getLsbD 1 = false

/-- 70_reset_and_hazards.md R190 and R192: asserting reset abandons a command without results, DONE or irq; while it is
asserted the engine does nothing and an access to the window is refused; released, the block is idle, at its reset
values, and takes a start at the next access. That a release while reset is not asserted changes nothing, and that
asserting it again while it is asserted resets again, is the model's reading (log 16). -/
def Obligations.HardwareResetAbandonsTheCommand : Prop :=
  ∀ s : State,
    (s.turns.head? = some (.resetPin s.cfg.resetActiveHigh) →
      step s = .next { State.resetOf s.cfg with
        resetAsserted := true, turns := s.turns.tail, responses := s.responses }) ∧
    (s.resetAsserted = true → s.engineNext = true → step s = .next s.popTurn) ∧
    (s.resetAsserted = true → ∀ k width off, s.accessNext k width off → step s = .refused .accessDuringReset) ∧
    (s.resetAsserted = true → s.turns.head? = some (.resetPin !s.cfg.resetActiveHigh) →
      ∃ t, step s = .next t ∧
        t = { State.resetOf s.cfg with turns := s.turns.tail, responses := s.responses } ∧ t.Ready) ∧
    (s.resetAsserted = false → s.turns.head? = some (.resetPin !s.cfg.resetActiveHigh) → step s = .next s.popTurn)

/-! ### Invariants and whole-machine rules -/

/-- The invariant holds after reset, for every configuration in the ranges of 00_scope.md R6. -/
def Obligations.InvariantHoldsAtReset : Prop :=
  State.reset.Inv ∧ ∀ c : Config, c.wf = true → (State.resetOf c).Inv

/-- Every step keeps the invariant: register sizes, parameter ranges, BUSY and DONE apart (10_state.md R28), no error
while busy (R34), no code above 5 (60_exceptions.md R160), reset values while reset is asserted
(70_reset_and_hazards.md R190). -/
def Obligations.EveryStepKeepsTheInvariant : Prop :=
  ∀ s t : State, s.Inv → step s = .next t → t.Inv

/-- 10_state.md R35, 20_memory.md R62: no operand changes while a command is in flight, nor does the latched word,
unless the move is a reset, which abandons it. That the completing step leaves CUR is the model's reading (log 9). -/
def Obligations.OperandsAreStableInFlight : Prop :=
  ∀ s t : State, s.busy = true → step s = .next t →
    (t.opa = s.opa ∧ t.opb = s.opb ∧ t.opc = s.opc ∧ t.cur = s.cur) ∨
    (s.resetNext ∧ t.busy = false ∧ t.done = false ∧ t.cur = 0 ∧ ∀ r, uint (t.getReg r) = 0)

/-- 10_state.md R37: a result register changes only at a completion without error, which ends the command in that one
step, or where the move is a reset. -/
def Obligations.ResultsChangeOnlyAtCompletionOrReset : Prop :=
  ∀ s t : State, step s = .next t →
    (t.res0 = s.res0 ∧ t.res1 = s.res1 ∧ t.res2 = s.res2) ∨
    (s.busy = true ∧ s.engineNext = true ∧ t.busy = false ∧ t.done = true ∧ t.err = 0 ∧
      ∃ w, execute s.cfg.nwords s.cur s.opa s.opb s.opc = .complete w ∧
        t.res0 = w.res0.getD s.res0 ∧ t.res1 = w.res1.getD s.res1 ∧ t.res2 = w.res2.getD s.res2) ∨
    (s.resetNext ∧ t.busy = false ∧ t.done = false ∧ ∀ r, t.getReg r = List.replicate s.cfg.nwords 0#32)

/-- 20_memory.md R60, 60_exceptions.md R162: in an idle block the results and ERR stay until the next start, a write to
CMD, which clears ERR, or a reset. -/
def Obligations.ResultsAndErrorStayWhileIdle : Prop :=
  ∀ s t : State, s.busy = false → step s = .next t →
    (t.busy = false ∧ t.err = s.err ∧ t.res0 = s.res0 ∧ t.res1 = s.res1 ∧ t.res2 = s.res2) ∨
    ((∃ v : Word, s.accessNext (.write v) 32 0x0004 ∧ s.resetAsserted = false ∧ t.cur = v) ∧
      t.busy = true ∧ t.err = 0 ∧ t.done = false ∧ t.res0 = s.res0 ∧ t.res1 = s.res1 ∧ t.res2 = s.res2) ∨
    (s.resetNext ∧ t.busy = false ∧ t.err = 0 ∧ t.done = false ∧ ∀ r, uint (t.getReg r) = 0)

/-- 00_scope.md R6, 20_memory.md R52, R59: no step changes the parameters, and a step gives at most one bus response,
to the access it takes. -/
def Obligations.ParametersAndResponsesAreKept : Prop :=
  ∀ s t : State, step s = .next t →
    t.cfg = s.cfg ∧ t.turns = s.turns.tail ∧
    (t.responses = s.responses ∨
      ∃ a r, s.turns.head? = some (.access a) ∧ t.responses = r :: s.responses)

/-- 10_state.md R35, 70_reset_and_hazards.md R205: whatever the host still does short of a reset, a command in flight
completes, with the results and the code of its operands at the start. That the engine moves once no move is listed, on
which the bound rests, is the model's choice (log 3). -/
def Obligations.CommandInFlightCompletes : Prop :=
  ∀ s : State, s.busy = true → s.resetAsserted = false →
    (∀ t ∈ s.turns, Turn.keepsCommand s.cfg t = true) →
    ∃ (k : Nat) (t : State), k ≤ s.turns.length + 1 ∧ Host.Core.run Sys2Proof.core k s = .next t ∧
      t.busy = false ∧ t.done = true ∧ t.err = s.complete.err ∧ t.res0 = s.complete.res0 ∧
      t.res1 = s.complete.res1 ∧ t.res2 = s.complete.res2 ∧ t.opa = s.opa ∧ t.opb = s.opb ∧ t.opc = s.opc

/-- 20_memory.md R59, 70_reset_and_hazards.md R197: an operand write that races with completion is dropped when it
falls before it and lands when it falls after; the command's results are the same in both. -/
def Obligations.RacingWriteHasBothOutcomes : Prop :=
  ∀ (s : State) (r : DataReg) (k : Nat) (v : Word) (rest : List Turn), s.Sized → s.busy = true →
    s.resetAsserted = false → r.isOperand = true → k < s.cfg.nwords →
    (∃ t, Host.Core.run Sys2Proof.core 2 { s with turns := wr s.cfg (r.base + 4 * k) v :: .engine :: rest } = .next t ∧
      t.getReg r = s.getReg r ∧ t.wbusy = true ∧ t.err = s.complete.err ∧ t.res0 = s.complete.res0 ∧
      t.res1 = s.complete.res1 ∧ t.res2 = s.complete.res2) ∧
    (∃ t, Host.Core.run Sys2Proof.core 2 { s with turns := .engine :: wr s.cfg (r.base + 4 * k) v :: rest } = .next t ∧
      t.getReg r = putWord (s.getReg r) k v ∧ t.wbusy = s.wbusy ∧ t.err = s.complete.err ∧
      t.res0 = s.complete.res0 ∧ t.res1 = s.complete.res1 ∧ t.res2 = s.complete.res2)

/-! ### EGCD -/

/-- 40_egcd.md R101, the pseudocode: EGCD completes with EgcdCore's values, or with ILLEGAL_OPERAND when b = 0; no other
state is written. -/
def Obligations.EgcdFollowsItsPseudocode : Prop :=
  ∀ s : State,
    (uint s.opb ≠ 0 →
      exec .egcd s = .next { s with
        busy := false, done := true, err := 0
        res0 := toWords s.cfg.nwords (egcdCore (uint s.opa) (uint s.opb)).1
        res1 := twosComplement s.cfg.nwords (egcdCore (uint s.opa) (uint s.opb)).2.1
        res2 := twosComplement s.cfg.nwords (egcdCore (uint s.opa) (uint s.opb)).2.2 }) ∧
    (uint s.opb = 0 → exec .egcd s = .next { s with busy := false, done := true, err := 2 })

/-- 40_egcd.md R102: RES0 is the gcd, the signed coefficients satisfy Bézout's identity exactly, and 1 <= g <= max(a, b). -/
def Obligations.EgcdResultsSatisfyBezout : Prop :=
  ∀ s : State, s.Sized → uint s.opb ≠ 0 →
    ∃ t, exec .egcd s = .next t ∧ t.err = 0 ∧ t.busy = false ∧ t.done = true ∧
      uint t.res0 = Nat.gcd (uint s.opa) (uint s.opb) ∧
      (uint s.opa : Int) * sint t.res1 + (uint s.opb : Int) * sint t.res2 = (uint t.res0 : Int) ∧
      1 ≤ uint t.res0 ∧ uint t.res0 ≤ max (uint s.opa) (uint s.opb)

/-- 40_egcd.md R103: the coefficient bound, as 2g|x| <= max(2g, b) and 2g|y| <= max(2g, a); below 2^(W-1); so the
result registers hold the coefficients without wrapping. R103 marks the bound as general knowledge, checked by
enumeration, and a lemma to prove. -/
def Obligations.EgcdCoefficientsAreBounded : Prop :=
  (∀ a b : Nat, 0 < b →
    2 * (egcdCore a b).1 * (egcdCore a b).2.1.natAbs ≤ max (2 * (egcdCore a b).1) b ∧
    2 * (egcdCore a b).1 * (egcdCore a b).2.2.natAbs ≤ max (2 * (egcdCore a b).1) a) ∧
  (∀ s : State, s.Sized → uint s.opb ≠ 0 →
    (egcdCore (uint s.opa) (uint s.opb)).2.1.natAbs ≤ 2 ^ (s.cfg.width - 1) - 1 ∧
    (egcdCore (uint s.opa) (uint s.opb)).2.2.natAbs ≤ 2 ^ (s.cfg.width - 1) - 1 ∧
    ∃ t, exec .egcd s = .next t ∧ sint t.res1 = (egcdCore (uint s.opa) (uint s.opb)).2.1 ∧
      sint t.res2 = (egcdCore (uint s.opa) (uint s.opb)).2.2)

/-- 40_egcd.md R106: the loop ends within b0 + 1 turns, so the model's fuel never cuts it short; each turn leaves b
strictly smaller, as the truncating remainder of R105. -/
def Obligations.EgcdLoopTerminates : Prop :=
  (∀ v : EgcdVars, v.b ≠ 0 → (egcdIter v).b = v.a % v.b ∧ (egcdIter v).b < v.b) ∧
  (∀ a b : Nat, 0 < b → (egcdLoop (b + 1) (egcdInit a b)).b = 0 ∧
    ∀ fuel, b + 1 ≤ fuel → egcdLoop fuel (egcdInit a b) = egcdLoop (b + 1) (egcdInit a b))

/-- 40_egcd.md R100: the loop keeps a = a0*x2 + b0*y2 and b = a0*x1 + b0*y1, after any number of turns. -/
def Obligations.EgcdLoopKeepsItsInvariants : Prop :=
  ∀ (a0 b0 fuel : Nat), 0 < b0 →
    ((egcdLoop fuel (egcdInit a0 b0)).a : Int) =
      a0 * (egcdLoop fuel (egcdInit a0 b0)).x2 + b0 * (egcdLoop fuel (egcdInit a0 b0)).y2 ∧
    ((egcdLoop fuel (egcdInit a0 b0)).b : Int) =
      a0 * (egcdLoop fuel (egcdInit a0 b0)).x1 + b0 * (egcdLoop fuel (egcdInit a0 b0)).y1

/-- 40_egcd.md R104: the last x1 and y1 are ±b0/g and ∓a0/g, of opposite signs. -/
def Obligations.EgcdLastCoefficients : Prop :=
  ∀ a b : Nat, 0 < b →
    (egcdLoop (b + 1) (egcdInit a b)).x1.natAbs = b / Nat.gcd a b ∧
    (egcdLoop (b + 1) (egcdInit a b)).y1.natAbs = a / Nat.gcd a b ∧
    (egcdLoop (b + 1) (egcdInit a b)).x1 * (egcdLoop (b + 1) (egcdInit a b)).y1 ≤ 0

/-- 40_egcd.md R101, the corner cases. -/
def Obligations.EgcdCornerCases : Prop :=
  (∀ b : Nat, 0 < b → egcdCore 0 b = (b, 0, 1)) ∧
  (∀ a : Nat, 0 < a → egcdCore a a = (a, 0, 1)) ∧
  (∀ a b : Nat, 0 < b → b < a → b ∣ a → egcdCore a b = (b, 0, 1)) ∧
  (∀ a b : Nat, 0 < a → a < b → a ∣ b → egcdCore a b = (a, 1, 0)) ∧
  (∀ a b : Nat, 0 < a → a < b →
    egcdCore a b = ((egcdCore b a).1, (egcdCore b a).2.2, (egcdCore b a).2.1)) ∧
  (∀ W : Nat, 32 ≤ W → egcdCore (2 ^ W - 1) (2 ^ W - 2) = (1, 1, -1))

/-! ### MODINV -/

/-- 41_modinv.md R111: MODINV of coprime operands completes with the unique inverse d, 1 <= d < phi; the raw coefficient
lies strictly between -phi and phi, and d is that coefficient plus phi where it is negative. -/
def Obligations.ModinvReturnsTheInverse : Prop :=
  ∀ s : State, s.Sized → 1 ≤ uint s.opa → 2 ≤ uint s.opb → Nat.gcd (uint s.opa) (uint s.opb) = 1 →
    ∃ t, exec .modinv s = .next t ∧ t.err = 0 ∧ t.busy = false ∧ t.done = true ∧
      1 ≤ uint t.res0 ∧ uint t.res0 < uint s.opb ∧ uint s.opa * uint t.res0 % uint s.opb = 1 ∧
      (∀ d, d < uint s.opb → uint s.opa * d % uint s.opb = 1 → d = uint t.res0) ∧
      -(uint s.opb : Int) < (egcdCore (uint s.opa) (uint s.opb)).2.1 ∧
      (egcdCore (uint s.opa) (uint s.opb)).2.1 < (uint s.opb : Int) ∧
      (uint t.res0 : Int) = (egcdCore (uint s.opa) (uint s.opb)).2.1 +
        (if (egcdCore (uint s.opa) (uint s.opb)).2.1 < 0 then (uint s.opb : Int) else 0) ∧
      t.res1 = s.res1 ∧ t.res2 = s.res2

/-- 41_modinv.md R112: exactly when MODINV ends in NO_INVERSE and exactly when in ILLEGAL_OPERAND; then nothing but
STATUS changes. -/
def Obligations.ModinvErrors : Prop :=
  ∀ s : State, ∃ t, exec .modinv s = .next t ∧
    (t.err = 3 ↔ 1 ≤ uint s.opa ∧ 2 ≤ uint s.opb ∧ Nat.gcd (uint s.opa) (uint s.opb) ≠ 1) ∧
    (t.err = 2 ↔ uint s.opa = 0 ∨ uint s.opb ≤ 1) ∧
    (t.err ≠ 0 → t = { s with busy := false, done := true, err := t.err })

/-! ### MODEXP, ENCSTEP, DECSTEP -/

/-- 42_modexp.md R120: ModPow is the unique residue of the exact power, with the conventions for e = 0 and n = 1. -/
def Obligations.ModPowIsTheResidue : Prop :=
  ∀ m e n : Nat, 1 ≤ n →
    modPow m e n < n ∧ modPow m e n ≡ m ^ e [MOD n] ∧ (∀ r, r < n → r ≡ m ^ e [MOD n] → r = modPow m e n) ∧
    modPow m 0 n = 1 % n ∧ modPow m e 1 = 0

/-- 42_modexp.md R121: MODEXP on every operand. That CUR stays without an error is the model's reading (log 9). -/
def Obligations.ModexpResult : Prop :=
  ∀ s : State, exec .modexp s = .next
    (if uint s.opc = 0 then { s with busy := false, done := true, err := 2 }
    else { s with
      busy := false, done := true, err := 0
      res0 := toWords s.cfg.nwords (uint s.opa ^ uint s.opb % uint s.opc) })

/-- 42_modexp.md R122: ENCSTEP on every operand; the check for n = 0 first, the range check before any power.
That CUR stays without an error is the model's reading (log 9). -/
def Obligations.EncstepResult : Prop :=
  ∀ s : State, exec .encstep s = .next
    (if uint s.opc = 0 then { s with busy := false, done := true, err := 2 }
    else if uint s.opc ≤ uint s.opa then { s with busy := false, done := true, err := 4 }
    else { s with
      busy := false, done := true, err := 0
      res0 := toWords s.cfg.nwords (uint s.opa ^ uint s.opb % uint s.opc) })

/-- 42_modexp.md R123: DECSTEP on every operand; a result above 0x10FFFF is an error and is not reported. That
CUR stays without an error is the model's reading (log 9). -/
def Obligations.DecstepResult : Prop :=
  ∀ s : State, exec .decstep s = .next
    (if uint s.opc = 0 then { s with busy := false, done := true, err := 2 }
    else if 0x10FFFF < uint s.opa ^ uint s.opb % uint s.opc then { s with busy := false, done := true, err := 5 }
    else { s with
      busy := false, done := true, err := 0
      res0 := toWords s.cfg.nwords (uint s.opa ^ uint s.opb % uint s.opc) })

/-- 42_modexp.md R124: results lie in [0, n), and the three commands are pure functions of their operands. -/
def Obligations.PowerCommandsArePure : Prop :=
  ∀ i : Instr, (i = .modexp ∨ i = .encstep ∨ i = .decstep) → ∀ s s' : State, s.Sized → s'.cfg.nwords = s.cfg.nwords →
    s'.opa = s.opa → s'.opb = s.opb → s'.opc = s.opc →
    ∃ t t', exec i s = .next t ∧ exec i s' = .next t' ∧ t.err = t'.err ∧
      (t.err = 0 → t.res0 = t'.res0 ∧ uint t.res0 < uint s.opc)

/-- The frame of the five commands (10_state.md R22, R35, R38): operands, CTRL, WBUSY, CUR and all that is not the
block's stay; RES1 and RES2 change only under EGCD, no result under an error; every byte of the window outside STATUS
and the results the command writes reads as before. That CUR stays without an error is the model's reading (log 9). -/
def Obligations.CommandFrame : Prop :=
  ∀ (i : Instr) (s t : State), exec i s = .next t →
    t.cfg = s.cfg ∧ t.opa = s.opa ∧ t.opb = s.opb ∧ t.opc = s.opc ∧ t.ie = s.ie ∧ t.wbusy = s.wbusy ∧ t.cur = s.cur ∧
    t.resetAsserted = s.resetAsserted ∧ t.turns = s.turns ∧ t.responses = s.responses ∧
    (i ≠ .egcd → t.res1 = s.res1 ∧ t.res2 = s.res2) ∧
    (t.err ≠ 0 → t.res0 = s.res0 ∧ t.res1 = s.res1 ∧ t.res2 = s.res2) ∧
    (∀ off, off / 4 ≠ 2 → (off < 0x1000 ∨ 0x1C00 ≤ off) → t.windowByte off = s.windowByte off) ∧
    (i ≠ .egcd → ∀ off, 0x1400 ≤ off → t.windowByte off = s.windowByte off) ∧
    (t.err ≠ 0 → ∀ off, off / 4 ≠ 2 → t.windowByte off = s.windowByte off)

/-- 60_exceptions.md R160 and R166: the code of every completion, the first error in the stated order. -/
def Obligations.CompletionCodeFollowsThePriority : Prop :=
  ∀ s : State, s.engineNext = true → s.busy = true → s.resetAsserted = false →
    ∃ t, step s = .next t ∧ t.err =
      if rsvField s.cur ≠ 0 then 1
      else if opField s.cur = 1 then (if uint s.opb = 0 then 2 else 0)
      else if opField s.cur = 2 then
        (if uint s.opa = 0 then 2 else if uint s.opb ≤ 1 then 2
          else if Nat.gcd (uint s.opa) (uint s.opb) ≠ 1 then 3 else 0)
      else if opField s.cur = 3 then (if uint s.opc = 0 then 2 else 0)
      else if opField s.cur = 4 then (if uint s.opc = 0 then 2 else if uint s.opc ≤ uint s.opa then 4 else 0)
      else if opField s.cur = 5 then
        (if uint s.opc = 0 then 2 else if 0x10FFFF < uint s.opa ^ uint s.opb % uint s.opc then 5 else 0)
      else 1

/-! ### Host procedures -/

/-- 43_host_procedures.md R141, 30_encoding.md R79: `RunCmd` is its bus transactions. Whatever number of polls takes
place before the engine moves, `j` of the first POLL (of an earlier command, if one is in flight) and `k` of the POLL
after the start, stepping through them leaves the state the procedure leaves, and the last read, CHECK, answers its STATUS.
POLL as one completion is the model's choice (log 13). -/
def Obligations.RunCmdIsItsBusTransactions : Prop :=
  ∀ (s : State) (word : Word) (a b : Nat) (n : Option Nat) (j k : Nat) (rest : List Turn), s.cfg.wf = true →
    s.resetAsserted = false → s.turns = runCmdTurns s.cfg word a b n j k ++ rest →
    ∃ rs : List Response,
      Host.Core.run Sys2Proof.core (runCmdTurns s.cfg word a b n j k).length s =
        .next { (runCmd word a b n s).2 with
          turns := rest, responses := .readOk (runCmd word a b n s).2.status :: (rs ++ s.responses) }

/-- 30_encoding.md R79: the transactions of `RDW R` read every word, least significant first, and change nothing. -/
def Obligations.RdwReadsEveryWord : Prop :=
  ∀ (s : State) (r : DataReg) (rest : List Turn), s.Sized → s.resetAsserted = false → s.turns = rdw s.cfg r ++ rest →
    Host.Core.run Sys2Proof.core s.cfg.nwords s =
      .next { s with turns := rest, responses := ((s.getReg r).map Response.readOk).reverse ++ s.responses }

/-- 43_host_procedures.md R142: the source's `egcd` and `mod_inverse` are single commands: what each leaves is what one
`RunCmd` of its word leaves. -/
def Obligations.EgcdAndModInverseAreSingleCommands : Prop :=
  ∀ (s : State) (a b : Nat), s.Sized → s.resetAsserted = false → a < 2 ^ s.cfg.width → b < 2 ^ s.cfg.width →
    (0 < b → ∃ x y, procEgcd a b s = (.ok (Nat.gcd a b, x, y), (runCmd 0x00000001 a b none s).2) ∧
      egcdCore a b = (Nat.gcd a b, x, y) ∧ (a : Int) * x + b * y = Nat.gcd a b) ∧
    (0 < a → 1 < b → Nat.gcd a b = 1 →
      ∃ d, procModInverse a b s = (.ok d, (runCmd 0x00000002 a b none s).2) ∧ 1 ≤ d ∧ d < b ∧ a * d % b = 1) ∧
    (0 < a → 1 < b → Nat.gcd a b ≠ 1 →
      procModInverse a b s = (.error .noInverseExists, (runCmd 0x00000002 a b none s).2))

/-- 43_host_procedures.md R143: the generator yields exactly the candidates, strictly increasing. -/
def Obligations.GeneratorYieldsTheCandidates : Prop :=
  ∀ (s : State) (phi : Nat), s.Sized → s.resetAsserted = false → 2 < phi → phi < 2 ^ s.cfg.width →
    ∃ seq t, generateValidExponents phi s = (.ok seq, t) ∧ (∀ e, e ∈ seq ↔ IsCandidate phi e) ∧
      seq.Pairwise (· < ·) ∧ (phi ≤ 7 → seq = [])

/-- 43_host_procedures.md R144: selection answers the first candidate, or NoValidExponentFound when there is none. -/
def Obligations.SelectionTakesTheFirstCandidate : Prop :=
  ∀ (s : State) (phi : Nat), s.Sized → s.resetAsserted = false → 2 < phi → phi < 2 ^ s.cfg.width →
    (∀ e, IsFirstCandidate phi e → ∃ t, selectExponent phi s = (.ok e, t)) ∧
    ((∀ e, ¬IsCandidate phi e) → ∃ t, selectExponent phi s = (.error .noValidExponentFound, t))

/-- 43_host_procedures.md R145: key assembly gives (e, n) and (d, n) with e*d = 1 modulo phi and d ≠ e, or one of its
two named failures; `NoInverseExists` cannot occur. -/
def Obligations.KeyAssemblyGivesAKeyPair : Prop :=
  ∀ (s : State) (p q : Nat), s.Sized → s.resetAsserted = false → 2 < (p - 1) * (q - 1) → p * q < 2 ^ s.cfg.width →
    ((∀ e, ¬IsCandidate ((p - 1) * (q - 1)) e) → ∃ t, assembleKeys p q s = (.error .noValidExponentFound, t)) ∧
    (∀ e, IsFirstCandidate ((p - 1) * (q - 1)) e →
      (e * e % ((p - 1) * (q - 1)) = 1 → ∃ t, assembleKeys p q s = (.error .degenerateKeyPair, t)) ∧
      (e * e % ((p - 1) * (q - 1)) ≠ 1 → ∃ d t,
        assembleKeys p q s = (.ok { e := e, d := d, n := p * q }, t) ∧ 1 ≤ d ∧ d < (p - 1) * (q - 1) ∧ d ≠ e ∧
        e * d % ((p - 1) * (q - 1)) = 1))

/-- 43_host_procedures.md R146: `encrypt` gives one value a code point, in order, or CharacterTooLarge and nothing else. -/
def Obligations.EncryptIsElementwise : Prop :=
  ∀ (s : State) (cps : List Nat) (e n : Nat), s.Sized → s.Ready → 0 < n → n < 2 ^ s.cfg.width →
    e < 2 ^ s.cfg.width → (∀ m ∈ cps, m ≤ 0x10FFFF) →
    ((∀ m ∈ cps, m < n) → ∃ t, encrypt cps e n s = (.ok (cps.map fun m => m ^ e % n), t)) ∧
    ((∃ m ∈ cps, n ≤ m) → ∃ t, encrypt cps e n s = (.error .characterTooLarge, t))

/-- 43_host_procedures.md R147: `decrypt` gives one code point a value, in order, or InvalidCharacterValue and nothing
else. -/
def Obligations.DecryptIsElementwise : Prop :=
  ∀ (s : State) (cs : List Nat) (d n : Nat), s.Sized → s.Ready → 0 < n → n < 2 ^ s.cfg.width →
    d < 2 ^ s.cfg.width → (∀ c ∈ cs, c < 2 ^ s.cfg.width) →
    ((∀ c ∈ cs, c ^ d % n ≤ 0x10FFFF) → ∃ t, decrypt cs d n s = (.ok (cs.map fun c => c ^ d % n), t)) ∧
    ((∃ c ∈ cs, 0x10FFFF < c ^ d % n) → ∃ t, decrypt cs d n s = (.error .invalidCharacterValue, t))

/-- 43_host_procedures.md R148: an empty input issues no command and gives an empty result, leaving the block as it was
apart from the writes of OPB and OPC (that they are made is the model's choice, log 13). -/
def Obligations.EmptyTextNeedsNoCommand : Prop :=
  ∀ (s : State) (e n : Nat), s.Ready →
    encrypt [] e n s = (.ok [], writeReg .opc n (writeReg .opb e s)) ∧
    decrypt [] e n s = (.ok [], writeReg .opc n (writeReg .opb e s))

/-- 43_host_procedures.md R149: the round trip, under the stated conditions. -/
def Obligations.DecryptInvertsEncrypt : Prop :=
  ∀ (s : State) (p q e d : Nat) (text : List Nat), s.Sized → s.Ready → p.Prime → q.Prime → p ≠ q →
    p * q < 2 ^ s.cfg.width → e < 2 ^ s.cfg.width → d < 2 ^ s.cfg.width → e * d ≡ 1 [MOD (p - 1) * (q - 1)] →
    (∀ m ∈ text, m < p * q ∧ m ≤ 0x10FFFF) →
    ∃ cs t u, encrypt text e (p * q) s = (.ok cs, t) ∧ decrypt cs d (p * q) t = (.ok text, u)

/-- 43_host_procedures.md R150: the host's map from STATUS.ERR to the source's errors. -/
def Obligations.ErrorCodesMapToSourceErrors : Prop :=
  sourceErrorOf CmdError.noInverse.code = some .noInverseExists ∧
  sourceErrorOf CmdError.charTooLarge.code = some .characterTooLarge ∧
  sourceErrorOf CmdError.invalidChar.code = some .invalidCharacterValue ∧
  sourceErrorOf CmdError.illegalOpcode.code = none ∧ sourceErrorOf CmdError.illegalOperand.code = none ∧
  (CmdError.illegalOpcode.code, CmdError.illegalOperand.code, CmdError.noInverse.code, CmdError.charTooLarge.code,
    CmdError.invalidChar.code) = (1#4, 2#4, 3#4, 4#4, 5#4)

/-- 43_host_procedures.md R146, R147, 30_encoding.md R79: one element of a codec sequence is its bus transactions, `WRW
OPA, m ; RUN <command> ; CHECK`. Whatever number `k` of polls takes place before the engine moves, stepping through them
leaves the state the element leaves, and the last read, CHECK, answers its STATUS. POLL as one completion is the model's
choice (log 13). -/
def Obligations.CodecElementIsItsBusTransactions : Prop :=
  ∀ (s : State) (word : Word) (m k : Nat) (rest : List Turn), s.cfg.wf = true → s.resetAsserted = false →
    s.turns = elementTurns s.cfg word m k ++ rest →
    ∃ rs : List Response,
      Host.Core.run Sys2Proof.core (elementTurns s.cfg word m k).length s =
        .next { stepElement word m s with
          turns := rest, responses := .readOk (stepElement word m s).status :: (rs ++ s.responses) }

/-- 43_host_procedures.md R146, R147: `encrypt` and `decrypt` are their bus transactions. Where every element ends without
error, stepping through the key writes and each element with its read of RES0 leaves the state the procedure leaves. Where
the element `m` after those ends with an error, the procedure answers that error, whatever elements follow, and stepping
through the transactions up to that element's CHECK, none of the later elements', leaves the state it leaves. Each element
has its own number of polls. POLL as one completion is the model's choice (log 13). -/
def Obligations.CodecsAreTheirBusTransactions : Prop :=
  ∀ (word : Word) (codec : List Nat → Nat → Nat → State → ProcReply (List Nat) × State),
    ((word = 0x00000004 ∧ codec = encrypt) ∨ (word = 0x00000005 ∧ codec = decrypt)) →
    ∀ (s u : State) (e n : Nat) (els : List (Nat × Nat)) (out : List Nat) (rest : List Turn), s.cfg.wf = true →
      s.resetAsserted = false → codec (els.map Prod.fst) e n s = (.ok out, u) →
      (s.turns = keyTurns s.cfg e n ++ (codecTurns s.cfg word els ++ rest) →
        ∃ rs : List Response,
          Host.Core.run Sys2Proof.core (keyTurns s.cfg e n ++ codecTurns s.cfg word els).length s =
            .next { u with turns := rest, responses := rs ++ s.responses }) ∧
      (∀ (m k : Nat) (more : List Nat), (stepElement word m u).check ≠ 0 →
        codec (els.map Prod.fst ++ m :: more) e n s =
          (failReply (stepElement word m u).check, stepElement word m u) ∧
        (s.turns = keyTurns s.cfg e n ++ (codecTurns s.cfg word els ++ (elementTurns s.cfg word m k ++ rest)) →
          ∃ rs : List Response,
            Host.Core.run Sys2Proof.core
                (keyTurns s.cfg e n ++ (codecTurns s.cfg word els ++ elementTurns s.cfg word m k)).length s =
              .next { stepElement word m u with
                turns := rest, responses := .readOk (stepElement word m u).status :: (rs ++ s.responses) }))
end

