-- ==== Sys2Proof/Laws/Decode.lean ====
section
/-! SUPPORT. The fields and byte lanes of a command word. -/

namespace Sys2Proof

@[simp] theorem rsvField_encode (i : Instr) : rsvField (encode i) = 0#28 := by cases i <;> rfl

@[simp] theorem opField_encode (i : Instr) : opField (encode i) = opOf i := by cases i <;> rfl

@[simp] theorem decodeOp_opOf (i : Instr) : decodeOp (opOf i) = .command i := by cases i <;> rfl

/-- A command word is its two fields. -/
theorem word_eq_fields (w : Word) : w = rsvField w ++ opField w := by
  apply BitVec.eq_of_toNat_eq
  simp only [rsvField, opField, BitVec.toNat_append, BitVec.extractLsb'_toNat, Nat.shiftRight_zero]
  rw [← Nat.shiftLeft_add_eq_or_of_lt (by omega)]
  have := w.isLt
  simp only [Nat.shiftRight_eq_div_pow, Nat.shiftLeft_eq]
  omega

/-- The lanes of a word put together again are the word (20_memory.md R53). -/
@[simp] theorem wordOfLanes_lanes (w : Word) : wordOfLanes (laneOf w 0) (laneOf w 1) (laneOf w 2) (laneOf w 3) = w := by
  apply BitVec.eq_of_getLsbD_eq
  intro i hi
  simp only [wordOfLanes, laneOf, BitVec.getLsbD_append, BitVec.getLsbD_extractLsb']
  by_cases h0 : i < 8
  · simp [h0]
  · by_cases h1 : i < 16
    · simp [h0, show i - 8 < 8 by omega, show 8 + (i - 8) = i by omega]
    · by_cases h2 : i < 24
      · simp [h0, show ¬ i - 8 < 8 by omega, show i - 8 - 8 < 8 by omega, show 16 + (i - 8 - 8) = i by omega]
      · simp [h0, show ¬ i - 8 < 8 by omega, show ¬ i - 8 - 8 < 8 by omega, show i - 8 - 8 - 8 < 8 by omega,
          show 24 + (i - 8 - 8 - 8) = i by omega]

/-- Decoding the bytes of a word decodes the word. -/
@[simp] theorem decodeBytes_lanes (w : Word) (rest : List Byte) :
    decodeBytes (lanes w ++ rest) = (decodeWord w, rest) := by
  simp [decodeBytes, lanes]

/-- What decoding a word can answer (30_encoding.md R72). -/
theorem decodeWord_cases (w : Word) :
    (∃ i, decodeWord w = .command i ∧ rsvField w = 0#28 ∧ opField w = opOf i) ∨
    (∃ why, decodeWord w = .illegal why) := by
  rw [decodeWord]
  split
  · next h =>
    rw [decodeOp]
    split_ifs with h1 h2 h3 h4 h5
    · exact .inl ⟨.egcd, rfl, h, h1⟩
    · exact .inl ⟨.modinv, rfl, h, h2⟩
    · exact .inl ⟨.modexp, rfl, h, h3⟩
    · exact .inl ⟨.encstep, rfl, h, h4⟩
    · exact .inl ⟨.decstep, rfl, h, h5⟩
    · exact .inr ⟨_, rfl⟩
  · exact .inr ⟨_, rfl⟩

end Sys2Proof
end

