-- ==== Sys2Proof/Laws/State.lean ====
section
/-! SUPPORT. One lemma per field per update of State, so that no proof unfolds a record update. -/

namespace Sys2Proof.Machine

section

@[simp] theorem State.resetBlock_cfg (s : State) : (s.resetBlock).cfg = s.cfg := rfl
@[simp] theorem State.resetBlock_opa (s : State) : (s.resetBlock).opa = zeroReg s.cfg.nwords := rfl
@[simp] theorem State.resetBlock_opb (s : State) : (s.resetBlock).opb = zeroReg s.cfg.nwords := rfl
@[simp] theorem State.resetBlock_opc (s : State) : (s.resetBlock).opc = zeroReg s.cfg.nwords := rfl
@[simp] theorem State.resetBlock_res0 (s : State) : (s.resetBlock).res0 = zeroReg s.cfg.nwords := rfl
@[simp] theorem State.resetBlock_res1 (s : State) : (s.resetBlock).res1 = zeroReg s.cfg.nwords := rfl
@[simp] theorem State.resetBlock_res2 (s : State) : (s.resetBlock).res2 = zeroReg s.cfg.nwords := rfl
@[simp] theorem State.resetBlock_ie (s : State) : (s.resetBlock).ie = false := rfl
@[simp] theorem State.resetBlock_busy (s : State) : (s.resetBlock).busy = false := rfl
@[simp] theorem State.resetBlock_done (s : State) : (s.resetBlock).done = false := rfl
@[simp] theorem State.resetBlock_wbusy (s : State) : (s.resetBlock).wbusy = false := rfl
@[simp] theorem State.resetBlock_err (s : State) : (s.resetBlock).err = 0 := rfl
@[simp] theorem State.resetBlock_cur (s : State) : (s.resetBlock).cur = 0 := rfl
@[simp] theorem State.resetBlock_resetAsserted (s : State) : (s.resetBlock).resetAsserted = s.resetAsserted := rfl
@[simp] theorem State.resetBlock_turns (s : State) : (s.resetBlock).turns = s.turns := rfl
@[simp] theorem State.resetBlock_responses (s : State) : (s.resetBlock).responses = s.responses := rfl

end

section

@[simp] theorem State.start_cfg (s : State) (v : Word) : (s.start v).cfg = s.cfg := rfl
@[simp] theorem State.start_opa (s : State) (v : Word) : (s.start v).opa = s.opa := rfl
@[simp] theorem State.start_opb (s : State) (v : Word) : (s.start v).opb = s.opb := rfl
@[simp] theorem State.start_opc (s : State) (v : Word) : (s.start v).opc = s.opc := rfl
@[simp] theorem State.start_res0 (s : State) (v : Word) : (s.start v).res0 = s.res0 := rfl
@[simp] theorem State.start_res1 (s : State) (v : Word) : (s.start v).res1 = s.res1 := rfl
@[simp] theorem State.start_res2 (s : State) (v : Word) : (s.start v).res2 = s.res2 := rfl
@[simp] theorem State.start_ie (s : State) (v : Word) : (s.start v).ie = s.ie := rfl
@[simp] theorem State.start_busy (s : State) (v : Word) : (s.start v).busy = true := rfl
@[simp] theorem State.start_done (s : State) (v : Word) : (s.start v).done = false := rfl
@[simp] theorem State.start_wbusy (s : State) (v : Word) : (s.start v).wbusy = s.wbusy := rfl
@[simp] theorem State.start_err (s : State) (v : Word) : (s.start v).err = 0 := rfl
@[simp] theorem State.start_cur (s : State) (v : Word) : (s.start v).cur = v := rfl
@[simp] theorem State.start_resetAsserted (s : State) (v : Word) : (s.start v).resetAsserted = s.resetAsserted := rfl
@[simp] theorem State.start_turns (s : State) (v : Word) : (s.start v).turns = s.turns := rfl
@[simp] theorem State.start_responses (s : State) (v : Word) : (s.start v).responses = s.responses := rfl

end

section

@[simp] theorem State.perform_cfg (s : State) (w : Writes) : (s.perform w).cfg = s.cfg := rfl
@[simp] theorem State.perform_opa (s : State) (w : Writes) : (s.perform w).opa = s.opa := rfl
@[simp] theorem State.perform_opb (s : State) (w : Writes) : (s.perform w).opb = s.opb := rfl
@[simp] theorem State.perform_opc (s : State) (w : Writes) : (s.perform w).opc = s.opc := rfl
@[simp] theorem State.perform_res0 (s : State) (w : Writes) : (s.perform w).res0 = w.res0.getD s.res0 := rfl
@[simp] theorem State.perform_res1 (s : State) (w : Writes) : (s.perform w).res1 = w.res1.getD s.res1 := rfl
@[simp] theorem State.perform_res2 (s : State) (w : Writes) : (s.perform w).res2 = w.res2.getD s.res2 := rfl
@[simp] theorem State.perform_ie (s : State) (w : Writes) : (s.perform w).ie = s.ie := rfl
@[simp] theorem State.perform_busy (s : State) (w : Writes) : (s.perform w).busy = s.busy := rfl
@[simp] theorem State.perform_done (s : State) (w : Writes) : (s.perform w).done = s.done := rfl
@[simp] theorem State.perform_wbusy (s : State) (w : Writes) : (s.perform w).wbusy = s.wbusy := rfl
@[simp] theorem State.perform_err (s : State) (w : Writes) : (s.perform w).err = s.err := rfl
@[simp] theorem State.perform_cur (s : State) (w : Writes) : (s.perform w).cur = s.cur := rfl
@[simp] theorem State.perform_resetAsserted (s : State) (w : Writes) : (s.perform w).resetAsserted = s.resetAsserted := rfl
@[simp] theorem State.perform_turns (s : State) (w : Writes) : (s.perform w).turns = s.turns := rfl
@[simp] theorem State.perform_responses (s : State) (w : Writes) : (s.perform w).responses = s.responses := rfl

end

section

@[simp] theorem State.endCommand_cfg (s : State) (c : BitVec 4) : (s.endCommand c).cfg = s.cfg := rfl
@[simp] theorem State.endCommand_opa (s : State) (c : BitVec 4) : (s.endCommand c).opa = s.opa := rfl
@[simp] theorem State.endCommand_opb (s : State) (c : BitVec 4) : (s.endCommand c).opb = s.opb := rfl
@[simp] theorem State.endCommand_opc (s : State) (c : BitVec 4) : (s.endCommand c).opc = s.opc := rfl
@[simp] theorem State.endCommand_res0 (s : State) (c : BitVec 4) : (s.endCommand c).res0 = s.res0 := rfl
@[simp] theorem State.endCommand_res1 (s : State) (c : BitVec 4) : (s.endCommand c).res1 = s.res1 := rfl
@[simp] theorem State.endCommand_res2 (s : State) (c : BitVec 4) : (s.endCommand c).res2 = s.res2 := rfl
@[simp] theorem State.endCommand_ie (s : State) (c : BitVec 4) : (s.endCommand c).ie = s.ie := rfl
@[simp] theorem State.endCommand_busy (s : State) (c : BitVec 4) : (s.endCommand c).busy = false := rfl
@[simp] theorem State.endCommand_done (s : State) (c : BitVec 4) : (s.endCommand c).done = true := rfl
@[simp] theorem State.endCommand_wbusy (s : State) (c : BitVec 4) : (s.endCommand c).wbusy = s.wbusy := rfl
@[simp] theorem State.endCommand_err (s : State) (c : BitVec 4) : (s.endCommand c).err = c := rfl
@[simp] theorem State.endCommand_cur (s : State) (c : BitVec 4) : (s.endCommand c).cur = s.cur := rfl
@[simp] theorem State.endCommand_resetAsserted (s : State) (c : BitVec 4) : (s.endCommand c).resetAsserted = s.resetAsserted := rfl
@[simp] theorem State.endCommand_turns (s : State) (c : BitVec 4) : (s.endCommand c).turns = s.turns := rfl
@[simp] theorem State.endCommand_responses (s : State) (c : BitVec 4) : (s.endCommand c).responses = s.responses := rfl

end

section

@[simp] theorem State.finish_cfg (s : State) (r : CmdResult) : (s.finish r).cfg = s.cfg := by cases r <;> rfl
@[simp] theorem State.finish_opa (s : State) (r : CmdResult) : (s.finish r).opa = s.opa := by cases r <;> rfl
@[simp] theorem State.finish_opb (s : State) (r : CmdResult) : (s.finish r).opb = s.opb := by cases r <;> rfl
@[simp] theorem State.finish_opc (s : State) (r : CmdResult) : (s.finish r).opc = s.opc := by cases r <;> rfl
@[simp] theorem State.finish_ie (s : State) (r : CmdResult) : (s.finish r).ie = s.ie := by cases r <;> rfl
@[simp] theorem State.finish_busy (s : State) (r : CmdResult) : (s.finish r).busy = false := by cases r <;> rfl
@[simp] theorem State.finish_done (s : State) (r : CmdResult) : (s.finish r).done = true := by cases r <;> rfl
@[simp] theorem State.finish_wbusy (s : State) (r : CmdResult) : (s.finish r).wbusy = s.wbusy := by cases r <;> rfl
@[simp] theorem State.finish_err (s : State) (r : CmdResult) : (s.finish r).err = r.code := by cases r <;> rfl
@[simp] theorem State.finish_cur (s : State) (r : CmdResult) : (s.finish r).cur = s.cur := by cases r <;> rfl
@[simp] theorem State.finish_resetAsserted (s : State) (r : CmdResult) : (s.finish r).resetAsserted = s.resetAsserted := by cases r <;> rfl
@[simp] theorem State.finish_turns (s : State) (r : CmdResult) : (s.finish r).turns = s.turns := by cases r <;> rfl
@[simp] theorem State.finish_responses (s : State) (r : CmdResult) : (s.finish r).responses = s.responses := by cases r <;> rfl

end

/-- An error writes no result register (10_state.md R38). -/
@[simp] theorem State.finish_raise (s : State) (e : CmdError) : s.finish (.raise e) = s.endCommand e.code := rfl

/-- A completion without error performs its writes (10_state.md R35). -/
@[simp] theorem State.finish_complete (s : State) (w : Writes) :
    s.finish (.complete w) = (s.perform w).endCommand 0 := rfl

section

@[simp] theorem State.clearStatus_cfg (s : State) (v : Word) : (s.clearStatus v).cfg = s.cfg := rfl
@[simp] theorem State.clearStatus_opa (s : State) (v : Word) : (s.clearStatus v).opa = s.opa := rfl
@[simp] theorem State.clearStatus_opb (s : State) (v : Word) : (s.clearStatus v).opb = s.opb := rfl
@[simp] theorem State.clearStatus_opc (s : State) (v : Word) : (s.clearStatus v).opc = s.opc := rfl
@[simp] theorem State.clearStatus_res0 (s : State) (v : Word) : (s.clearStatus v).res0 = s.res0 := rfl
@[simp] theorem State.clearStatus_res1 (s : State) (v : Word) : (s.clearStatus v).res1 = s.res1 := rfl
@[simp] theorem State.clearStatus_res2 (s : State) (v : Word) : (s.clearStatus v).res2 = s.res2 := rfl
@[simp] theorem State.clearStatus_ie (s : State) (v : Word) : (s.clearStatus v).ie = s.ie := rfl
@[simp] theorem State.clearStatus_busy (s : State) (v : Word) : (s.clearStatus v).busy = s.busy := rfl
@[simp] theorem State.clearStatus_done (s : State) (v : Word) : (s.clearStatus v).done = (s.done && !v.getLsbD 1) := rfl
@[simp] theorem State.clearStatus_wbusy (s : State) (v : Word) : (s.clearStatus v).wbusy = (s.wbusy && !v.getLsbD 2) := rfl
@[simp] theorem State.clearStatus_err (s : State) (v : Word) : (s.clearStatus v).err = s.err := rfl
@[simp] theorem State.clearStatus_cur (s : State) (v : Word) : (s.clearStatus v).cur = s.cur := rfl
@[simp] theorem State.clearStatus_resetAsserted (s : State) (v : Word) : (s.clearStatus v).resetAsserted = s.resetAsserted := rfl
@[simp] theorem State.clearStatus_turns (s : State) (v : Word) : (s.clearStatus v).turns = s.turns := rfl
@[simp] theorem State.clearStatus_responses (s : State) (v : Word) : (s.clearStatus v).responses = s.responses := rfl

end

section

@[simp] theorem State.noteDropped_cfg (s : State) : (s.noteDropped).cfg = s.cfg := rfl
@[simp] theorem State.noteDropped_opa (s : State) : (s.noteDropped).opa = s.opa := rfl
@[simp] theorem State.noteDropped_opb (s : State) : (s.noteDropped).opb = s.opb := rfl
@[simp] theorem State.noteDropped_opc (s : State) : (s.noteDropped).opc = s.opc := rfl
@[simp] theorem State.noteDropped_res0 (s : State) : (s.noteDropped).res0 = s.res0 := rfl
@[simp] theorem State.noteDropped_res1 (s : State) : (s.noteDropped).res1 = s.res1 := rfl
@[simp] theorem State.noteDropped_res2 (s : State) : (s.noteDropped).res2 = s.res2 := rfl
@[simp] theorem State.noteDropped_ie (s : State) : (s.noteDropped).ie = s.ie := rfl
@[simp] theorem State.noteDropped_busy (s : State) : (s.noteDropped).busy = s.busy := rfl
@[simp] theorem State.noteDropped_done (s : State) : (s.noteDropped).done = s.done := rfl
@[simp] theorem State.noteDropped_wbusy (s : State) : (s.noteDropped).wbusy = true := rfl
@[simp] theorem State.noteDropped_err (s : State) : (s.noteDropped).err = s.err := rfl
@[simp] theorem State.noteDropped_cur (s : State) : (s.noteDropped).cur = s.cur := rfl
@[simp] theorem State.noteDropped_resetAsserted (s : State) : (s.noteDropped).resetAsserted = s.resetAsserted := rfl
@[simp] theorem State.noteDropped_turns (s : State) : (s.noteDropped).turns = s.turns := rfl
@[simp] theorem State.noteDropped_responses (s : State) : (s.noteDropped).responses = s.responses := rfl

end

section

@[simp] theorem State.respond_cfg (s : State) (r : Response) : (s.respond r).cfg = s.cfg := rfl
@[simp] theorem State.respond_opa (s : State) (r : Response) : (s.respond r).opa = s.opa := rfl
@[simp] theorem State.respond_opb (s : State) (r : Response) : (s.respond r).opb = s.opb := rfl
@[simp] theorem State.respond_opc (s : State) (r : Response) : (s.respond r).opc = s.opc := rfl
@[simp] theorem State.respond_res0 (s : State) (r : Response) : (s.respond r).res0 = s.res0 := rfl
@[simp] theorem State.respond_res1 (s : State) (r : Response) : (s.respond r).res1 = s.res1 := rfl
@[simp] theorem State.respond_res2 (s : State) (r : Response) : (s.respond r).res2 = s.res2 := rfl
@[simp] theorem State.respond_ie (s : State) (r : Response) : (s.respond r).ie = s.ie := rfl
@[simp] theorem State.respond_busy (s : State) (r : Response) : (s.respond r).busy = s.busy := rfl
@[simp] theorem State.respond_done (s : State) (r : Response) : (s.respond r).done = s.done := rfl
@[simp] theorem State.respond_wbusy (s : State) (r : Response) : (s.respond r).wbusy = s.wbusy := rfl
@[simp] theorem State.respond_err (s : State) (r : Response) : (s.respond r).err = s.err := rfl
@[simp] theorem State.respond_cur (s : State) (r : Response) : (s.respond r).cur = s.cur := rfl
@[simp] theorem State.respond_resetAsserted (s : State) (r : Response) : (s.respond r).resetAsserted = s.resetAsserted := rfl
@[simp] theorem State.respond_turns (s : State) (r : Response) : (s.respond r).turns = s.turns := rfl
@[simp] theorem State.respond_responses (s : State) (r : Response) : (s.respond r).responses = r :: s.responses := rfl

end

section

@[simp] theorem State.popTurn_cfg (s : State) : (s.popTurn).cfg = s.cfg := rfl
@[simp] theorem State.popTurn_opa (s : State) : (s.popTurn).opa = s.opa := rfl
@[simp] theorem State.popTurn_opb (s : State) : (s.popTurn).opb = s.opb := rfl
@[simp] theorem State.popTurn_opc (s : State) : (s.popTurn).opc = s.opc := rfl
@[simp] theorem State.popTurn_res0 (s : State) : (s.popTurn).res0 = s.res0 := rfl
@[simp] theorem State.popTurn_res1 (s : State) : (s.popTurn).res1 = s.res1 := rfl
@[simp] theorem State.popTurn_res2 (s : State) : (s.popTurn).res2 = s.res2 := rfl
@[simp] theorem State.popTurn_ie (s : State) : (s.popTurn).ie = s.ie := rfl
@[simp] theorem State.popTurn_busy (s : State) : (s.popTurn).busy = s.busy := rfl
@[simp] theorem State.popTurn_done (s : State) : (s.popTurn).done = s.done := rfl
@[simp] theorem State.popTurn_wbusy (s : State) : (s.popTurn).wbusy = s.wbusy := rfl
@[simp] theorem State.popTurn_err (s : State) : (s.popTurn).err = s.err := rfl
@[simp] theorem State.popTurn_cur (s : State) : (s.popTurn).cur = s.cur := rfl
@[simp] theorem State.popTurn_resetAsserted (s : State) : (s.popTurn).resetAsserted = s.resetAsserted := rfl
@[simp] theorem State.popTurn_turns (s : State) : (s.popTurn).turns = s.turns.tail := rfl
@[simp] theorem State.popTurn_responses (s : State) : (s.popTurn).responses = s.responses := rfl

end

section

@[simp] theorem State.setReg_cfg (s : State) (r : DataReg) (ws : List Word) : (s.setReg r ws).cfg = s.cfg := by cases r <;> rfl
@[simp] theorem State.setReg_ie (s : State) (r : DataReg) (ws : List Word) : (s.setReg r ws).ie = s.ie := by cases r <;> rfl
@[simp] theorem State.setReg_busy (s : State) (r : DataReg) (ws : List Word) : (s.setReg r ws).busy = s.busy := by cases r <;> rfl
@[simp] theorem State.setReg_done (s : State) (r : DataReg) (ws : List Word) : (s.setReg r ws).done = s.done := by cases r <;> rfl
@[simp] theorem State.setReg_wbusy (s : State) (r : DataReg) (ws : List Word) : (s.setReg r ws).wbusy = s.wbusy := by cases r <;> rfl
@[simp] theorem State.setReg_err (s : State) (r : DataReg) (ws : List Word) : (s.setReg r ws).err = s.err := by cases r <;> rfl
@[simp] theorem State.setReg_cur (s : State) (r : DataReg) (ws : List Word) : (s.setReg r ws).cur = s.cur := by cases r <;> rfl
@[simp] theorem State.setReg_resetAsserted (s : State) (r : DataReg) (ws : List Word) : (s.setReg r ws).resetAsserted = s.resetAsserted := by cases r <;> rfl
@[simp] theorem State.setReg_turns (s : State) (r : DataReg) (ws : List Word) : (s.setReg r ws).turns = s.turns := by cases r <;> rfl
@[simp] theorem State.setReg_responses (s : State) (r : DataReg) (ws : List Word) : (s.setReg r ws).responses = s.responses := by cases r <;> rfl

end

@[simp] theorem State.setReg_getReg_same (s : State) (r : DataReg) (ws : List Word) :
    (s.setReg r ws).getReg r = ws := by cases r <;> rfl

theorem State.setReg_getReg_other (s : State) (r q : DataReg) (ws : List Word) (h : q ≠ r) :
    (s.setReg r ws).getReg q = s.getReg q := by
  cases r <;> cases q <;> first | rfl | exact absurd rfl h

/-- A register read after a write of one register. -/
theorem State.setReg_getReg (s : State) (r q : DataReg) (ws : List Word) :
    (s.setReg r ws).getReg q = if q = r then ws else s.getReg q := by
  split
  · next h => subst h; simp
  · next h => exact s.setReg_getReg_other r q ws h

@[simp] theorem State.getReg_setReg_self (s : State) (r : DataReg) : s.setReg r (s.getReg r) = s := by
  cases r <;> rfl

section

@[simp] theorem State.getReg_opa (s : State) : s.getReg .opa = s.opa := rfl
@[simp] theorem State.getReg_opb (s : State) : s.getReg .opb = s.opb := rfl
@[simp] theorem State.getReg_opc (s : State) : s.getReg .opc = s.opc := rfl
@[simp] theorem State.getReg_res0 (s : State) : s.getReg .res0 = s.res0 := rfl
@[simp] theorem State.getReg_res1 (s : State) : s.getReg .res1 = s.res1 := rfl
@[simp] theorem State.getReg_res2 (s : State) : s.getReg .res2 = s.res2 := rfl

end

section

@[simp] theorem State.start_getReg (s : State) (v : Word) (r : DataReg) : (s.start v).getReg r = s.getReg r := by
  cases r <;> rfl
@[simp] theorem State.endCommand_getReg (s : State) (c : BitVec 4) (r : DataReg) : (s.endCommand c).getReg r = s.getReg r := by
  cases r <;> rfl
@[simp] theorem State.clearStatus_getReg (s : State) (v : Word) (r : DataReg) : (s.clearStatus v).getReg r = s.getReg r := by
  cases r <;> rfl
@[simp] theorem State.noteDropped_getReg (s : State) (r : DataReg) : (s.noteDropped).getReg r = s.getReg r := by
  cases r <;> rfl
@[simp] theorem State.respond_getReg (s : State) (x : Response) (r : DataReg) : (s.respond x).getReg r = s.getReg r := by
  cases r <;> rfl
@[simp] theorem State.popTurn_getReg (s : State) (r : DataReg) : (s.popTurn).getReg r = s.getReg r := by
  cases r <;> rfl
@[simp] theorem State.resetBlock_getReg (s : State) (r : DataReg) :
    s.resetBlock.getReg r = zeroReg s.cfg.nwords := by
  cases r <;> rfl

/-- The engine never writes an operand register (10_state.md R22). -/
theorem State.finish_getReg_operand (s : State) (c : CmdResult) (r : DataReg) (h : r.isOperand = true) :
    (s.finish c).getReg r = s.getReg r := by
  cases r <;> simp_all [DataReg.isOperand]

end

section

@[simp] theorem State.resetOf_cfg (c : Config) : (State.resetOf c).cfg = c := rfl
@[simp] theorem State.resetOf_opa (c : Config) : (State.resetOf c).opa = zeroReg c.nwords := rfl
@[simp] theorem State.resetOf_opb (c : Config) : (State.resetOf c).opb = zeroReg c.nwords := rfl
@[simp] theorem State.resetOf_opc (c : Config) : (State.resetOf c).opc = zeroReg c.nwords := rfl
@[simp] theorem State.resetOf_res0 (c : Config) : (State.resetOf c).res0 = zeroReg c.nwords := rfl
@[simp] theorem State.resetOf_res1 (c : Config) : (State.resetOf c).res1 = zeroReg c.nwords := rfl
@[simp] theorem State.resetOf_res2 (c : Config) : (State.resetOf c).res2 = zeroReg c.nwords := rfl
@[simp] theorem State.resetOf_ie (c : Config) : (State.resetOf c).ie = false := rfl
@[simp] theorem State.resetOf_busy (c : Config) : (State.resetOf c).busy = false := rfl
@[simp] theorem State.resetOf_done (c : Config) : (State.resetOf c).done = false := rfl
@[simp] theorem State.resetOf_wbusy (c : Config) : (State.resetOf c).wbusy = false := rfl
@[simp] theorem State.resetOf_err (c : Config) : (State.resetOf c).err = 0 := rfl
@[simp] theorem State.resetOf_cur (c : Config) : (State.resetOf c).cur = 0 := rfl
@[simp] theorem State.resetOf_resetAsserted (c : Config) : (State.resetOf c).resetAsserted = false := rfl
@[simp] theorem State.resetOf_turns (c : Config) : (State.resetOf c).turns = [] := rfl
@[simp] theorem State.resetOf_responses (c : Config) : (State.resetOf c).responses = [] := rfl

end

@[simp] theorem State.reset_eq : State.reset = State.resetOf Config.reference := rfl

/-- A state is its fields. -/
theorem State.ext_fields {s t : State} (hcfg : s.cfg = t.cfg) (hreg : ∀ r, s.getReg r = t.getReg r)
    (hie : s.ie = t.ie) (hbusy : s.busy = t.busy) (hdone : s.done = t.done) (hwbusy : s.wbusy = t.wbusy)
    (herr : s.err = t.err) (hcur : s.cur = t.cur) (hrst : s.resetAsserted = t.resetAsserted)
    (hturns : s.turns = t.turns) (hresp : s.responses = t.responses) : s = t := by
  have ha := hreg .opa
  have hb := hreg .opb
  have hc := hreg .opc
  have h0 := hreg .res0
  have h1 := hreg .res1
  have h2 := hreg .res2
  cases s; cases t
  simp_all

end Sys2Proof.Machine
end

