-- ==== Sys2Proof/Laws/Words.lean ====
section
/-! SUPPORT. A register as words and as an integer: `uint`, `toWords`, `twosComplement`, `sint`. -/

namespace Sys2Proof.Machine

@[simp] theorem toWords_length (n v : Nat) : (toWords n v).length = n := by
  induction n generalizing v with
  | zero => rfl
  | succ n ih => simp [toWords, ih]

@[simp] theorem zeroReg_length (n : Nat) : (zeroReg n).length = n := by simp [zeroReg]

@[simp] theorem twosComplement_length (n : Nat) (z : Int) : (twosComplement n z).length = n := by
  simp [twosComplement]

@[simp] theorem putWord_length (ws : List Word) (k : Nat) (w : Word) : (putWord ws k w).length = ws.length := by
  simp [putWord]

theorem two_pow_words (n : Nat) : 2 ^ (32 * (n + 1)) = 2 ^ 32 * 2 ^ (32 * n) := by
  rw [Nat.mul_succ, Nat.add_comm, Nat.pow_add]

/-- A register of n words is below 2^W (10_state.md R22). -/
theorem uint_lt (ws : List Word) : uint ws < 2 ^ (32 * ws.length) := by
  induction ws with
  | nil => simp [uint]
  | cons w ws ih =>
    have hw := w.isLt
    simp only [uint, List.length_cons, two_pow_words]
    have : 2 ^ 32 * (uint ws + 1) ≤ 2 ^ 32 * 2 ^ (32 * ws.length) := Nat.mul_le_mul_left _ ih
    omega

/-- Writing a value and reading it back keeps its residue modulo 2^W. -/
@[simp] theorem uint_toWords (n v : Nat) : uint (toWords n v) = v % 2 ^ (32 * n) := by
  induction n generalizing v with
  | zero => simp [toWords, uint, Nat.mod_one]
  | succ n ih =>
    simp only [toWords, uint, ih, two_pow_words, BitVec.toNat_ofNat]
    rw [Nat.mod_mul]

theorem uint_toWords_of_lt {n v : Nat} (h : v < 2 ^ (32 * n)) : uint (toWords n v) = v := by
  rw [uint_toWords, Nat.mod_eq_of_lt h]

/-- A register is the words of its value. -/
@[simp] theorem toWords_uint (ws : List Word) : toWords ws.length (uint ws) = ws := by
  induction ws with
  | nil => rfl
  | cons w ws ih =>
    have hw := w.isLt
    have hdiv : (w.toNat + 2 ^ 32 * uint ws) / 2 ^ 32 = uint ws := by omega
    simp only [List.length_cons, toWords, uint, hdiv, ih, List.cons.injEq, and_true]
    apply BitVec.eq_of_toNat_eq
    simp only [BitVec.toNat_ofNat]
    omega

/-- Registers of one length are told apart by their values. -/
theorem uint_inj {xs ys : List Word} (hlen : xs.length = ys.length) (h : uint xs = uint ys) : xs = ys := by
  rw [← toWords_uint xs, ← toWords_uint ys, hlen, h]

@[simp] theorem uint_zeroReg (n : Nat) : uint (zeroReg n) = 0 := by
  induction n with
  | zero => rfl
  | succ n ih =>
    have h0 : uint (List.replicate n 0#32) = 0 := ih
    simp [zeroReg, List.replicate_succ, uint, h0]

/-- Word k holds bits [32k+31:32k] (20_memory.md R54). -/
theorem wordAt_toNat (ws : List Word) (k : Nat) : (wordAt ws k).toNat = uint ws / 2 ^ (32 * k) % 2 ^ 32 := by
  induction ws generalizing k with
  | nil => simp [wordAt, uint]
  | cons w ws ih =>
    have hw := w.isLt
    cases k with
    | zero =>
      simp only [wordAt, List.getD_cons_zero, uint, Nat.mul_zero, Nat.pow_zero, Nat.div_one]
      omega
    | succ k =>
      have hdiv : (w.toNat + 2 ^ 32 * uint ws) / 2 ^ 32 = uint ws := by omega
      have := ih k
      simp only [wordAt] at this
      simp only [wordAt, List.getD_cons_succ, uint, two_pow_words, ← Nat.div_div_eq_div_mul, hdiv, this]

theorem wordAt_toWords {n v k : Nat} (h : k < n) : wordAt (toWords n v) k = BitVec.ofNat 32 (v / 2 ^ (32 * k)) := by
  induction n generalizing v k with
  | zero => omega
  | succ n ih =>
    cases k with
    | zero => simp [wordAt, toWords]
    | succ k =>
      have := @ih (v / 2 ^ 32) k (by omega)
      simp only [wordAt] at this
      simp only [wordAt, toWords, List.getD_cons_succ, this, Nat.div_div_eq_div_mul, two_pow_words]

@[simp] theorem wordAt_zeroReg (n k : Nat) : wordAt (zeroReg n) k = 0 := by
  simp only [wordAt, zeroReg, List.getD_eq_getElem?_getD, List.getElem?_replicate]
  split <;> rfl

theorem wordAt_putWord_same {ws : List Word} {k : Nat} (w : Word) (h : k < ws.length) :
    wordAt (putWord ws k w) k = w := by
  simp [wordAt, putWord, h]

theorem wordAt_putWord_other (ws : List Word) {j k : Nat} (w : Word) (h : j ≠ k) :
    wordAt (putWord ws k w) j = wordAt ws j := by
  simp [wordAt, putWord, h.symm]

/-- Registers of one length with the same words are the same. -/
theorem ext_wordAt {xs ys : List Word} (hlen : xs.length = ys.length)
    (h : ∀ k, k < xs.length → wordAt xs k = wordAt ys k) : xs = ys := by
  apply List.ext_getElem hlen
  intro k hx hy
  simpa [wordAt, hx, hy] using h k hx

theorem putWord_comm (ws : List Word) {j k : Nat} (v w : Word) (h : j ≠ k) :
    putWord (putWord ws j v) k w = putWord (putWord ws k w) j v := by
  simp only [putWord]
  rw [List.set_comm _ _ h]

theorem uint_twosComplement (n : Nat) (z : Int) :
    (uint (twosComplement n z) : Int) = z % 2 ^ (32 * n) := by
  have hpos : (0 : Int) < 2 ^ (32 * n) := by positivity
  have h0 := Int.emod_nonneg z hpos.ne'
  have h1 := Int.emod_lt_of_pos z hpos
  have hlt : (z % 2 ^ (32 * n)).toNat < 2 ^ (32 * n) := by
    zify
    rw [Int.toNat_of_nonneg h0]
    exact h1
  rw [twosComplement, uint_toWords_of_lt hlt, Int.toNat_of_nonneg h0]

/-- "For z in [-2^(N-1), 2^(N-1)), sint(tw_N(z)) = z" (00_scope.md R9). -/
theorem sint_twosComplement {n : Nat} {z : Int} (hn : 0 < n) (hlo : -2 ^ (32 * n - 1) ≤ z)
    (hhi : z < 2 ^ (32 * n - 1)) : sint (twosComplement n z) = z := by
  have hu := uint_twosComplement n z
  have hpow : (2 : Int) ^ (32 * n) = 2 * 2 ^ (32 * n - 1) := by
    have : 32 * n = (32 * n - 1) + 1 := by omega
    rw [this, pow_succ]
    simp
    ring
  have hpos : (0 : Int) < 2 ^ (32 * n - 1) := by positivity
  simp only [sint, twosComplement_length]
  rcases lt_or_ge z 0 with hneg | hnn
  · have hmod : z % 2 ^ (32 * n) = z + 2 ^ (32 * n) := by
      rw [← Int.add_emod_right, Int.emod_eq_of_lt] <;> omega
    rw [if_neg, hu, hmod]
    · ring
    · zify
      rw [hu, hmod]
      omega
  · have hmod : z % 2 ^ (32 * n) = z := Int.emod_eq_of_lt hnn (by omega)
    rw [if_pos, hu, hmod]
    zify
    rw [hu, hmod]
    exact hhi

end Sys2Proof.Machine
end

