-- ==== Sys2Proof/Laws/Ops.lean ====
section
/-! SUPPORT. What the shared operations do: the address map, the accepted accesses, the end of a command. -/

namespace Sys2Proof.Machine

section

@[simp] theorem targetOf_ctrl (n : Nat) : targetOf n 0 = .ctrl := rfl
@[simp] theorem targetOf_cmd (n : Nat) : targetOf n 4 = .cmd := rfl
@[simp] theorem targetOf_status (n : Nat) : targetOf n 8 = .status := rfl
@[simp] theorem targetOf_param (n : Nat) : targetOf n 12 = .param := rfl

/-- A register's window is the 0x400 bytes from its base (20_memory.md R55). -/
theorem windowOf_eq_some {off : Nat} {r : DataReg} :
    windowOf off = some r ↔ r.base ≤ off ∧ off < r.base + 0x400 := by
  rw [windowOf]
  cases r <;> simp only [DataReg.base] <;> (repeat' split) <;> simp <;> omega

theorem windowOf_lt {off : Nat} (h : off < 0x400) : windowOf off = none := by
  simp [windowOf, h]

/-- Word k of a register's window (20_memory.md R55, R56). -/
theorem targetOf_base (n : Nat) (r : DataReg) {k : Nat} (hk : k < 256) :
    targetOf n (r.base + 4 * k) = if k < n then .word r k else .unmapped := by
  have hw : windowOf (r.base + 4 * k) = some r := windowOf_eq_some.2 ⟨by omega, by omega⟩
  simp [targetOf, hw]

/-- The offsets that name a register word (20_memory.md R55). -/
theorem targetOf_word {n off : Nat} {r : DataReg} {k : Nat} (h : targetOf n off = .word r k) (ha : off % 4 = 0) :
    off = r.base + 4 * k ∧ k < n := by
  rw [targetOf] at h
  split at h
  · rw [controlTarget] at h
    (repeat' split at h) <;> simp at h
  · next q hq =>
    obtain ⟨hlo, _⟩ := windowOf_eq_some.1 hq
    split at h
    · simp only [Target.word.injEq] at h
      obtain ⟨rfl, rfl⟩ := h
      have : q.base % 4 = 0 := by cases q <;> rfl
      omega
    · simp at h

/-- The offsets that name a control register (20_memory.md R55). -/
theorem targetOf_control {n off : Nat} {x : Target} (hx : x = .ctrl ∨ x = .cmd ∨ x = .status ∨ x = .param)
    (h : targetOf n off = x) : controlTarget off = x ∧ windowOf off = none := by
  rw [targetOf] at h
  split at h
  · next hw => exact ⟨h, hw⟩
  · split at h <;> subst h <;> simp at hx

theorem targetOf_eq_ctrl {n off : Nat} : targetOf n off = .ctrl ↔ off = 0 := by
  refine ⟨fun h => ?_, by rintro rfl; rfl⟩
  have := (targetOf_control (.inl rfl) h).1
  rw [controlTarget] at this
  (repeat' split at this) <;> simp_all

theorem targetOf_eq_cmd {n off : Nat} : targetOf n off = .cmd ↔ off = 4 := by
  refine ⟨fun h => ?_, by rintro rfl; rfl⟩
  have := (targetOf_control (.inr (.inl rfl)) h).1
  rw [controlTarget] at this
  (repeat' split at this) <;> simp_all

theorem targetOf_eq_status {n off : Nat} : targetOf n off = .status ↔ off = 8 := by
  refine ⟨fun h => ?_, by rintro rfl; rfl⟩
  have := (targetOf_control (.inr (.inr (.inl rfl))) h).1
  rw [controlTarget] at this
  (repeat' split at this) <;> simp_all

theorem targetOf_eq_param {n off : Nat} : targetOf n off = .param ↔ off = 12 := by
  refine ⟨fun h => ?_, by rintro rfl; rfl⟩
  have := (targetOf_control (.inr (.inr (.inr rfl))) h).1
  rw [controlTarget] at this
  (repeat' split at this) <;> simp_all

end

/-- The largest configuration still fits the windows (00_scope.md R6). -/
theorem nwords_of_wf {c : Config} (h : c.wf = true) : 1 ≤ c.nwords ∧ c.nwords ≤ 256 ∧ c.base % 0x2000 = 0 := by
  simpa [Config.wf, Config.widthOk, Config.baseOk, Config.windowSize, and_assoc] using h

/-- A read of word k of a register. -/
theorem busRead_word (s : State) (r : DataReg) {k : Nat} (hn : s.cfg.nwords ≤ 256) (hk : k < s.cfg.nwords) :
    s.busRead (r.base + 4 * k) = wordAt (s.getReg r) k := by
  simp [State.busRead, targetOf_base _ _ (lt_of_lt_of_le hk hn), hk]

/-- A write of word k of a register. -/
theorem busWrite_word (s : State) (r : DataReg) (v : Word) {k : Nat} (hn : s.cfg.nwords ≤ 256)
    (hk : k < s.cfg.nwords) : s.busWrite (r.base + 4 * k) v = s.writeWord r k v := by
  simp [State.busWrite, targetOf_base _ _ (lt_of_lt_of_le hk hn), hk]

@[simp] theorem busRead_status (s : State) : s.busRead 8 = s.status := rfl
@[simp] theorem busRead_ctrl (s : State) : s.busRead 0 = ctrlWord s.ie := rfl
@[simp] theorem busRead_cmd (s : State) : s.busRead 4 = 0 := rfl
@[simp] theorem busRead_param (s : State) : s.busRead 12 = paramWord s.cfg.nwords := rfl
@[simp] theorem busWrite_cmd (s : State) (v : Word) : s.busWrite 4 v = s.writeCmd v := rfl
@[simp] theorem busWrite_ctrl (s : State) (v : Word) : s.busWrite 0 v = s.writeCtrl v := rfl
@[simp] theorem busWrite_status (s : State) (v : Word) : s.busWrite 8 v = s.clearStatus v := rfl
@[simp] theorem busWrite_param (s : State) (v : Word) : s.busWrite 12 v = s := rfl

/-- Everything an accepted write can do (10_state.md R39). -/
theorem busWrite_cases (s : State) (off : Nat) (v : Word) (ha : off % 4 = 0) :
    s.busWrite off v = s ∨
    (s.busWrite off v = s.noteDropped ∧ s.busy = true) ∨
    (off = 0 ∧ v.getLsbD 1 = true ∧ s.busWrite off v = s.resetBlock) ∨
    (off = 0 ∧ v.getLsbD 1 = false ∧ s.busWrite off v = { s with ie := v.getLsbD 0 }) ∨
    (off = 4 ∧ s.busy = false ∧ s.busWrite off v = s.start v) ∨
    (off = 8 ∧ s.busWrite off v = s.clearStatus v) ∨
    (∃ r k, off = r.base + 4 * k ∧ k < s.cfg.nwords ∧ r.isOperand = true ∧ s.busy = false ∧
      s.busWrite off v = s.setReg r (putWord (s.getReg r) k v)) := by
  rw [State.busWrite]
  split
  · next h =>
    rw [targetOf_eq_ctrl] at h
    rw [State.writeCtrl]
    by_cases hv : v.getLsbD 1 = true <;> simp_all
  · next h =>
    rw [targetOf_eq_cmd] at h
    rw [State.writeCmd]
    by_cases hb : s.busy = true <;> simp_all
  · next h =>
    rw [targetOf_eq_status] at h
    exact .inr (.inr (.inr (.inr (.inr (.inl ⟨h, rfl⟩)))))
  · exact .inl rfl
  · next r k h =>
    obtain ⟨hoff, hk⟩ := targetOf_word h ha
    rw [State.writeWord]
    by_cases ho : r.isOperand = true
    · by_cases hb : s.busy = true
      · simp_all
      · simp only [ho, hb, if_true]
        exact .inr (.inr (.inr (.inr (.inr (.inr ⟨r, k, hoff, hk, ho, by simp, by simp⟩)))))
    · simp_all
  · exact .inl rfl

section

@[simp] theorem busWrite_cfg (s : State) (off : Nat) (v : Word) : (s.busWrite off v).cfg = s.cfg := by
  rw [State.busWrite]
  split
  · rw [State.writeCtrl]; split <;> simp
  · rw [State.writeCmd]; split <;> simp
  · simp
  · rfl
  · rw [State.writeWord]; (repeat' split) <;> simp
  · rfl

@[simp] theorem busWrite_resetAsserted (s : State) (off : Nat) (v : Word) : (s.busWrite off v).resetAsserted = s.resetAsserted := by
  rw [State.busWrite]
  split
  · rw [State.writeCtrl]; split <;> simp
  · rw [State.writeCmd]; split <;> simp
  · simp
  · rfl
  · rw [State.writeWord]; (repeat' split) <;> simp
  · rfl

@[simp] theorem busWrite_turns (s : State) (off : Nat) (v : Word) : (s.busWrite off v).turns = s.turns := by
  rw [State.busWrite]
  split
  · rw [State.writeCtrl]; split <;> simp
  · rw [State.writeCmd]; split <;> simp
  · simp
  · rfl
  · rw [State.writeWord]; (repeat' split) <;> simp
  · rfl

@[simp] theorem busWrite_responses (s : State) (off : Nat) (v : Word) : (s.busWrite off v).responses = s.responses := by
  rw [State.busWrite]
  split
  · rw [State.writeCtrl]; split <;> simp
  · rw [State.writeCmd]; split <;> simp
  · simp
  · rfl
  · rw [State.writeWord]; (repeat' split) <;> simp
  · rfl

end

/-- Register windows lie at word offsets (20_memory.md R55). -/
theorem DataReg.base_add_mod (r : DataReg) (k : Nat) : (r.base + 4 * k) % 4 = 0 := by
  have : r.base % 4 = 0 := by cases r <;> rfl
  omega

/-- No two register words share an offset (20_memory.md R55). -/
theorem DataReg.base_inj {r q : DataReg} {j k : Nat} (hj : j < 256) (hk : k < 256)
    (h : r.base + 4 * j = q.base + 4 * k) : r = q ∧ j = k := by
  cases r <;> cases q <;> simp [DataReg.base] at h ⊢ <;> omega

/-- An aligned offset that names nothing (20_memory.md R56). -/
theorem targetOf_unmapped {n off : Nat} (ha : off % 4 = 0) (h : Unmapped n off) : targetOf n off = .unmapped := by
  obtain ⟨h0, h4, h8, h12, hw⟩ := h
  cases ht : targetOf n off with
  | ctrl => exact absurd (targetOf_eq_ctrl.1 ht) h0
  | cmd => exact absurd (targetOf_eq_cmd.1 ht) h4
  | status => exact absurd (targetOf_eq_status.1 ht) h8
  | param => exact absurd (targetOf_eq_param.1 ht) h12
  | unmapped => rfl
  | word r k =>
    obtain ⟨h1, h2⟩ := targetOf_word ht ha
    exact absurd h1 (hw r k h2)

theorem ctrlWord_toNat (ie : Bool) : (ctrlWord ie).toNat = ie.toNat := by cases ie <;> rfl

theorem paramWord_toNat {n : Nat} (h : n < 2 ^ 16) : (paramWord n).toNat = n := by
  simp only [paramWord, BitVec.toNat_append, BitVec.toNat_ofNat, Nat.zero_mod, Nat.zero_shiftLeft, Nat.zero_or]
  exact Nat.mod_eq_of_lt h

/-- The value of STATUS (10_state.md R28). -/
theorem statusWord_toNat (busy done wbusy : Bool) (err : BitVec 4) :
    (statusWord busy done wbusy err).toNat = busy.toNat + 2 * done.toNat + 4 * wbusy.toNat + 16 * err.toNat := by
  revert err
  cases busy <;> cases done <;> cases wbusy <;> decide

/-- ERR as CHECK reads it (30_encoding.md R79). -/
@[simp] theorem check_eq (s : State) : s.check = s.err := by
  simp only [State.check, busRead_status, State.status, statusWord]
  generalize s.err = e
  revert e
  cases s.busy <;> cases s.done <;> cases s.wbusy <;> decide

/-- When a host access is answered, and what the answer leaves. -/
theorem access_next {a : Access} {s t : State} (h : s.access a = .next t) :
    Config.decodes s.cfg a.addr = true ∧ s.resetAsserted = false ∧
      t = s.portAccess a.kind a.width (a.addr - s.cfg.base) := by
  rw [State.access] at h
  split_ifs at h with h1 h2
  · cases h
    exact ⟨h1, by simpa using h2, rfl⟩

/-- Everything an access to the window can do: one response, and for an accepted write the write. -/
theorem portAccess_cases (k : AccessKind) (width off : Nat) (s : State) :
    (∃ r, s.portAccess k width off = s.respond r) ∨
    (∃ v, k = .write v ∧ width = 32 ∧ off % 4 = 0 ∧
      s.portAccess k width off = (s.busWrite off v).respond .writeOk) := by
  unfold State.portAccess
  split_ifs with ha
  · cases k with
    | read => exact .inl ⟨_, rfl⟩
    | write v =>
      simp only [accepted, Bool.and_eq_true, beq_iff_eq] at ha
      exact .inr ⟨v, rfl, ha.1, ha.2, rfl⟩
  · cases k with
    | read => exact .inl ⟨_, rfl⟩
    | write v => exact .inl ⟨_, rfl⟩

/-- An accepted read answers its word and changes nothing else (20_memory.md R57). -/
theorem portAccess_read (s : State) {off : Nat} (ha : off % 4 = 0) :
    s.portAccess .read 32 off = s.respond (.readOk (s.busRead off)) := by
  simp [State.portAccess, accepted, ha]

/-- An accepted write does its write and is answered (10_state.md R36). -/
theorem portAccess_write (s : State) (v : Word) {off : Nat} (ha : off % 4 = 0) :
    s.portAccess (.write v) 32 off = (s.busWrite off v).respond .writeOk := by
  simp [State.portAccess, accepted, ha]

/-- Any other access is answered with a bus error and changes nothing else (20_memory.md R52). -/
theorem portAccess_error (s : State) (k : AccessKind) {width off : Nat} (h : width ≠ 32 ∨ off % 4 ≠ 0) :
    s.portAccess k width off =
      s.respond (match k with | .read => .readError 0 | .write _ => .writeError) := by
  have ha : accepted width off = false := by
    rw [accepted, Bool.and_eq_false_iff]
    simpa using h
  cases k <;> simp [State.portAccess, ha]

/-- A command's end as one case split (10_state.md R35, R38). -/
theorem finish_cases (r : CmdResult) (s : State) :
    (∃ e, r = .raise e ∧ s.finish r = s.endCommand e.code) ∨
    (∃ w, r = .complete w ∧ s.finish r = (s.perform w).endCommand 0) := by
  cases r with
  | raise e => exact .inl ⟨e, rfl, rfl⟩
  | complete w => exact .inr ⟨w, rfl, rfl⟩

/-- Only the codes of 60_exceptions.md R160 are produced. -/
theorem code_le_five (r : CmdResult) : r.code.toNat ≤ 5 := by
  cases r with
  | raise e => cases e <;> decide
  | complete w => simp [CmdResult.code]

/-- Every register a result writes has `n` words. -/
def CmdResult.Sized (n : Nat) : CmdResult → Prop
  | .raise _ => True
  | .complete w => ∀ ws, (w.res0 = some ws ∨ w.res1 = some ws ∨ w.res2 = some ws) → ws.length = n

/-- A completion keeps the registers at their size. -/
theorem finish_getReg_length {n : Nat} {r : CmdResult} {s : State} (hr : r.Sized n)
    (hs : ∀ q, (s.getReg q).length = n) (q : DataReg) : ((s.finish r).getReg q).length = n := by
  cases r with
  | raise e => simpa using hs q
  | complete w =>
    have h0 : ∀ (o : Option (List Word)) (d : List Word), d.length = n → (∀ ws, o = some ws → ws.length = n) →
        (o.getD d).length = n := by
      intro o d hd ho
      cases o with
      | none => exact hd
      | some ws => exact ho ws rfl
    cases q with
    | opa => exact hs .opa
    | opb => exact hs .opb
    | opc => exact hs .opc
    | res0 => exact h0 _ _ (hs .res0) fun ws h => hr ws (.inl h)
    | res1 => exact h0 _ _ (hs .res1) fun ws h => hr ws (.inr (.inl h))
    | res2 => exact h0 _ _ (hs .res2) fun ws h => hr ws (.inr (.inr h))

end Sys2Proof.Machine
end

