-- ==== Sys2Proof/Laws/PerInstr.lean ====
section
/-! SUPPORT. Facts stated of every command, one lemma per constructor. -/

namespace Sys2Proof.Laws.DecodeEncode

/-- The command word of `i`, taken apart and read back, is `i`, and the table's decoder agrees (30_encoding.md R71). -/
def Statement (i : Instr) : Prop :=
  decodeWord (encode i) = .command i ∧ decodeTableWord 32 (encode i).toNat = some i

theorem egcd : Statement .egcd := ⟨rfl, rfl⟩

theorem modinv : Statement .modinv := ⟨rfl, rfl⟩

theorem modexp : Statement .modexp := ⟨rfl, rfl⟩

theorem encstep : Statement .encstep := ⟨rfl, rfl⟩

theorem decstep : Statement .decstep := ⟨rfl, rfl⟩

end Sys2Proof.Laws.DecodeEncode
end

