-- ==== Sys2Proof/Laws/Step.lean ====
section
/-! SUPPORT. What the engine and a step can do, said once. -/

namespace Sys2Proof.Machine

/-- A decoded command ends with the result R72 gives it. -/
theorem exec_eq_finish (i : Instr) (s : State) :
    exec i s = .next (s.finish (commandResult s.cfg.nwords i s.opa s.opb s.opc)) := by
  cases i <;> rfl

/-- The completion step always answers (30_encoding.md R72: decoding is total). -/
theorem runLatched_eq (s : State) : s.runLatched = .next s.complete := by
  rw [State.runLatched, State.complete, execute]
  split <;> simp_all [exec_eq_finish]

/-- The engine's turn, whole. -/
theorem engineTurn_eq (s : State) :
    s.engineTurn = .next (if s.busy = true ∧ s.resetAsserted = false then s.complete else s) := by
  rw [State.engineTurn]
  cases hr : s.resetAsserted <;> cases hb : s.busy <;> simp [runLatched_eq]

/-- Every command's result keeps the registers at their size. -/
theorem execute_sized (n : Nat) (cur : Word) (A B C : List Word) : (execute n cur A B C).Sized n := by
  rw [execute]
  split
  · next i _ =>
    cases i <;>
      simp only [commandResult, egcdCommand, modinvCommand, modexpCommand, encstepCommand, decstepCommand,
        completeRes0] <;> split_ifs <;> simp only [CmdResult.Sized] <;> intro ws h <;> simp at h <;>
      (rcases h with rfl | rfl | rfl) <;> simp
  · exact trivial

section

@[simp] theorem complete_cfg (s : State) : s.complete.cfg = s.cfg := by simp [State.complete]
@[simp] theorem complete_opa (s : State) : s.complete.opa = s.opa := by simp [State.complete]
@[simp] theorem complete_opb (s : State) : s.complete.opb = s.opb := by simp [State.complete]
@[simp] theorem complete_opc (s : State) : s.complete.opc = s.opc := by simp [State.complete]
@[simp] theorem complete_ie (s : State) : s.complete.ie = s.ie := by simp [State.complete]
@[simp] theorem complete_busy (s : State) : s.complete.busy = false := by simp [State.complete]
@[simp] theorem complete_done (s : State) : s.complete.done = true := by simp [State.complete]
@[simp] theorem complete_wbusy (s : State) : s.complete.wbusy = s.wbusy := by simp [State.complete]
@[simp] theorem complete_err (s : State) :
    s.complete.err = (execute s.cfg.nwords s.cur s.opa s.opb s.opc).code := by simp [State.complete]
@[simp] theorem complete_cur (s : State) : s.complete.cur = s.cur := by simp [State.complete]
@[simp] theorem complete_resetAsserted (s : State) : s.complete.resetAsserted = s.resetAsserted := by
  simp [State.complete]
@[simp] theorem complete_turns (s : State) : s.complete.turns = s.turns := by simp [State.complete]
@[simp] theorem complete_responses (s : State) : s.complete.responses = s.responses := by simp [State.complete]

end

theorem popTurn_of_nil {s : State} (h : s.turns = []) : s.popTurn = s := by
  cases s; subst h; rfl

/-- With no move listed the engine has the turn (log 3). -/
theorem step_of_nil {s : State} (h : s.turns = []) : step s = s.popTurn.engineTurn := by
  rw [popTurn_of_nil h]
  cases s; subst h; rfl

/-- A listed move is taken by its agent, on the state without it. -/
theorem step_of_cons {s : State} {u : Turn} {rest : List Turn} (h : s.turns = u :: rest) :
    step s = s.popTurn.takeTurn u := by
  cases s; subst h; rfl

/-- A step in which the engine moves. -/
theorem step_engine {s : State} (h : s.engineNext = true) :
    step s = .next (if s.busy = true ∧ s.resetAsserted = false then s.popTurn.complete else s.popTurn) := by
  rw [State.engineNext] at h
  split at h
  · next hnil => rw [step_of_nil hnil, engineTurn_eq]; rfl
  · next hcons => rw [step_of_cons hcons, State.takeTurn, engineTurn_eq]; rfl
  · simp at h
  · simp at h

/-- A step in which the host accesses the window. -/
theorem step_access {s : State} {k : AccessKind} {width off : Nat} (h : s.accessNext k width off)
    (hr : s.resetAsserted = false) : step s = .next (s.popTurn.portAccess k width off) := by
  obtain ⟨hoff, hhead⟩ := h
  obtain ⟨rest, hcons⟩ := List.head?_eq_some_iff.1 hhead
  have hdec : Config.decodes s.cfg (s.cfg.base + off) = true := by simp [Config.decodes, hoff]
  rw [step_of_cons hcons, State.takeTurn, State.access]
  simp [hdec, hr]

/-- A step in which an accepted read takes effect. -/
theorem step_read {s : State} {off : Nat} (h : s.accessNext .read 32 off) (ha : off % 4 = 0)
    (hr : s.resetAsserted = false) : step s = .next (s.popTurn.respond (.readOk (s.popTurn.busRead off))) := by
  rw [step_access h hr, portAccess_read _ ha]

/-- A step in which an accepted write takes effect. -/
theorem step_write {s : State} {off : Nat} {v : Word} (h : s.accessNext (.write v) 32 off) (ha : off % 4 = 0)
    (hr : s.resetAsserted = false) : step s = .next ((s.popTurn.busWrite off v).respond .writeOk) := by
  rw [step_access h hr, portAccess_write _ _ ha]

/-- A step in which the reset pin takes a level. -/
theorem step_resetPin {s : State} {level : Bool} (h : s.turns.head? = some (.resetPin level)) :
    step s = .next (s.popTurn.driveReset level) := by
  obtain ⟨rest, hcons⟩ := List.head?_eq_some_iff.1 h
  rw [step_of_cons hcons, State.takeTurn]

/-- A listed access that the block decodes, by its offset in the window. -/
theorem accessNext_of_head {s : State} {a : Access} (h : s.turns.head? = some (.access a))
    (hd : Config.decodes s.cfg a.addr = true) : s.accessNext a.kind a.width (a.addr - s.cfg.base) := by
  simp only [Config.decodes, Bool.and_eq_true, decide_eq_true_eq] at hd
  refine ⟨by omega, ?_⟩
  rw [h, Nat.add_sub_cancel' hd.1]

/-- What a level of the reset pin does: a reset, or nothing. -/
theorem driveReset_cases (level : Bool) (s : State) :
    ((level = s.cfg.resetActiveHigh ∨ s.resetAsserted = true) ∧
      ∃ b, s.driveReset level = { s.resetBlock with resetAsserted := b }) ∨
    (s.resetAsserted = false ∧ s.driveReset level = s) := by
  rw [State.driveReset]
  split
  · next h => exact .inl ⟨.inl h, _, rfl⟩
  · cases hr : s.resetAsserted
    · exact .inr ⟨rfl, rfl⟩
    · exact .inl ⟨.inr rfl, _, rfl⟩

/-- A run's first step. -/
theorem run_succ {s t : State} (k : Nat) (h : step s = .next t) :
    Host.Core.run Sys2Proof.core (k + 1) s = Host.Core.run Sys2Proof.core k t := by
  have h' : Sys2Proof.core.step s = .next t := h
  simp only [Host.Core.run, h']

/-- A run cut in two. -/
theorem run_add {s t : State} (j k : Nat) (h : Host.Core.run Sys2Proof.core j s = .next t) :
    Host.Core.run Sys2Proof.core (j + k) s = Host.Core.run Sys2Proof.core k t := by
  induction j generalizing s with
  | zero =>
    cases h
    rw [Nat.zero_add]
  | succ j ih =>
    rw [Nat.succ_add]
    cases hs : Sys2Proof.core.step s with
    | next u =>
      simp only [Host.Core.run, hs] at h
      rw [run_succ _ hs, ih h]
    | fault r => simp [Host.Core.run, hs] at h
    | refused r => simp [Host.Core.run, hs] at h

/-- Everything a step can do, when it answers a next state. -/
theorem step_cases {s t : State} (h : step s = .next t) :
    (s.engineNext = true ∧
      t = if s.busy = true ∧ s.resetAsserted = false then s.popTurn.complete else s.popTurn) ∨
    (∃ a, s.turns.head? = some (.access a) ∧ Config.decodes s.cfg a.addr = true ∧ s.resetAsserted = false ∧
      t = s.popTurn.portAccess a.kind a.width (a.addr - s.cfg.base)) ∨
    (∃ level, s.turns.head? = some (.resetPin level) ∧ t = s.popTurn.driveReset level) := by
  by_cases he : s.engineNext = true
  · rw [step_engine he] at h
    cases h
    exact .inl ⟨he, rfl⟩
  · cases hcons : s.turns with
    | nil => simp [State.engineNext, hcons] at he
    | cons u rest =>
      rw [step_of_cons hcons] at h
      cases u with
      | engine => simp [State.engineNext, hcons] at he
      | access a =>
        obtain ⟨h1, h2, h3⟩ := access_next h
        exact .inr (.inl ⟨a, rfl, h1, h2, h3⟩)
      | resetPin level =>
        cases h
        exact .inr (.inr ⟨level, rfl, rfl⟩)

end Sys2Proof.Machine
end

