-- ==== Sys2Proof/Laws/Procedures.lean ====
section
/-! SUPPORT. What the host's register reads and writes and its driver sequence do, said once. -/

namespace Sys2Proof.Machine

/-- Reading words is reading the register from word k on. -/
theorem readWords_eq (s : State) (hs : s.Sized) (r : DataReg) (n k : Nat) (hk : k + n = s.cfg.nwords) :
    s.readWords r k n = (s.getReg r).drop k := by
  obtain ⟨_, h256, _⟩ := nwords_of_wf hs.cfgWf
  induction n generalizing k with
  | zero =>
    rw [State.readWords, List.drop_eq_nil_of_le]
    rw [hs.regLen]
    omega
  | succ n ih =>
    have hlt : k < (s.getReg r).length := by rw [hs.regLen]; omega
    rw [State.readWords, ih (k + 1) (by omega), busRead_word s r h256 (by omega), List.drop_eq_getElem_cons hlt]
    simp [wordAt, hlt]

/-- `RDW` reads the whole register. -/
theorem readWords_all (s : State) (hs : s.Sized) (r : DataReg) : s.readWords r 0 s.cfg.nwords = s.getReg r := by
  simpa using readWords_eq s hs r s.cfg.nwords 0 (by omega)

/-- Writing words to an idle operand register writes it from word k on. -/
theorem writeWords_eq (s : State) (hs : s.Sized) (r : DataReg) (ho : r.isOperand = true) (hb : s.busy = false)
    (k : Nat) (ws : List Word) (hk : k + ws.length = s.cfg.nwords) :
    writeWords r k ws s = s.setReg r ((s.getReg r).take k ++ ws) := by
  induction ws generalizing k s with
  | nil =>
    have : (s.getReg r).take k = s.getReg r := List.take_of_length_le (by rw [hs.regLen]; simp at hk; omega)
    simp [writeWords, this]
  | cons w ws ih =>
    simp only [List.length_cons] at hk
    obtain ⟨_, h256, _⟩ := nwords_of_wf hs.cfgWf
    have hw : s.busWrite (r.base + 4 * k) w = s.setReg r (putWord (s.getReg r) k w) := by
      rw [busWrite_word s r w h256 (by omega), State.writeWord]
      simp [ho, hb]
    have hs' : (s.setReg r (putWord (s.getReg r) k w)).Sized := by
      refine ⟨by simpa using hs.cfgWf, fun q => ?_⟩
      rw [State.setReg_getReg]
      split
      · simp [hs.regLen]
      · simp [hs.regLen]
    rw [writeWords, hw, ih _ hs' (by simpa using hb) (k + 1) (by simp; omega)]
    have hlen : k < (s.getReg r).length := by rw [hs.regLen]; omega
    have htake : (putWord (s.getReg r) k w).take (k + 1) ++ ws = (s.getReg r).take k ++ w :: ws := by
      rw [putWord, List.take_add_one]
      simp [List.take_set_of_le (Nat.le_refl k), hlen]
    rw [State.setReg_getReg_same, htake]
    cases r <;> rfl

/-- `WRW` of an idle operand register writes the value's words (10_state.md R22, 20_memory.md R54). -/
theorem writeReg_eq (s : State) (hs : s.Sized) (r : DataReg) (ho : r.isOperand = true) (hb : s.busy = false)
    (v : Nat) : writeReg r v s = s.setReg r (toWords s.cfg.nwords v) := by
  rw [writeReg, writeWords_eq s hs r ho hb 0 _ (by simp)]
  simp

section

theorem setReg_sized {s : State} (hs : s.Sized) (r : DataReg) (v : Nat) :
    (s.setReg r (toWords s.cfg.nwords v)).Sized := by
  refine ⟨by simpa using hs.cfgWf, fun q => ?_⟩
  rw [State.setReg_getReg]
  split
  · simp
  · simp [hs.regLen]

theorem complete_sized {s : State} (hs : s.Sized) : s.complete.Sized := by
  refine ⟨by simpa using hs.cfgWf, fun q => ?_⟩
  have := finish_getReg_length (execute_sized s.cfg.nwords s.cur s.opa s.opb s.opc) hs.regLen q
  simpa [State.complete] using this

theorem poll_sized {s : State} (hs : s.Sized) : s.poll.Sized := by
  rw [State.poll]
  split
  · exact complete_sized hs
  · exact hs

theorem start_sized {s : State} (hs : s.Sized) (v : Word) : (s.start v).Sized :=
  ⟨hs.cfgWf, fun q => by simpa using hs.regLen q⟩

@[simp] theorem poll_busy (s : State) : s.poll.busy = false := by
  rw [State.poll]
  split <;> simp_all

@[simp] theorem poll_cfg (s : State) : s.poll.cfg = s.cfg := by
  rw [State.poll]
  split <;> simp

end

/-- `RUN` on an idle block starts the word and completes it (30_encoding.md R79). -/
theorem runCommand_eq {s : State} (hb : s.busy = false) (word : Word) :
    s.runCommand word = (s.start word).finish (execute s.cfg.nwords word s.opa s.opb s.opc) := by
  simp [State.runCommand, State.writeCmd, hb, State.poll, State.complete]

/-- What a completed command answers to CHECK and RDW (43_host_procedures.md R141). -/
theorem reply_eq {s : State} (hs : s.Sized) :
    s.reply = if s.err = 0 then .ok (uint s.res0) (sint s.res1) (sint s.res2) else .fail s.err := by
  simp [State.reply, State.readReg, State.readSigned, readWords_all s hs]

section

/-- The state with another outside world: other moves to come, other responses given. -/
def State.withEnv (ts : List Turn) (rs : List Response) (s : State) : State := { s with turns := ts, responses := rs }

@[simp] theorem withEnv_cfg (ts : List Turn) (rs : List Response) (s : State) : (s.withEnv ts rs).cfg = s.cfg := rfl
@[simp] theorem withEnv_busy (ts : List Turn) (rs : List Response) (s : State) : (s.withEnv ts rs).busy = s.busy := rfl
@[simp] theorem withEnv_resetAsserted (ts : List Turn) (rs : List Response) (s : State) :
    (s.withEnv ts rs).resetAsserted = s.resetAsserted := rfl
@[simp] theorem withEnv_withEnv (ts us : List Turn) (rs qs : List Response) (s : State) :
    (s.withEnv ts rs).withEnv us qs = s.withEnv us qs := rfl
@[simp] theorem withEnv_busRead (ts : List Turn) (rs : List Response) (s : State) (off : Nat) :
    (s.withEnv ts rs).busRead off = s.busRead off := rfl
@[simp] theorem withEnv_popTurn (u : Turn) (ts : List Turn) (rs : List Response) (s : State) :
    (s.withEnv (u :: ts) rs).popTurn = s.withEnv ts rs := rfl
@[simp] theorem withEnv_respond (r : Response) (ts : List Turn) (rs : List Response) (s : State) :
    (s.withEnv ts rs).respond r = s.withEnv ts (r :: rs) := rfl

theorem withEnv_self (s : State) : s.withEnv s.turns s.responses = s := rfl

/-- What a write does to the block does not depend on the outside world. -/
@[simp] theorem withEnv_busWrite (ts : List Turn) (rs : List Response) (s : State) (off : Nat) (v : Word) :
    (s.withEnv ts rs).busWrite off v = (s.busWrite off v).withEnv ts rs := by
  simp only [State.busWrite, withEnv_cfg]
  cases targetOf s.cfg.nwords off with
  | ctrl => simp only [State.writeCtrl]; split <;> rfl
  | cmd =>
    cases hb : s.busy <;> simp only [State.writeCmd, withEnv_busy, hb] <;> rfl
  | status => rfl
  | param => rfl
  | unmapped => rfl
  | word r k =>
    cases hb : s.busy <;> simp only [State.writeWord, withEnv_busy, hb] <;> cases r <;> rfl

/-- Nor does a completion. -/
@[simp] theorem withEnv_complete (ts : List Turn) (rs : List Response) (s : State) :
    (s.withEnv ts rs).complete = s.complete.withEnv ts rs := by
  have h : (s.withEnv ts rs).complete =
      (s.withEnv ts rs).finish (execute s.cfg.nwords s.cur s.opa s.opb s.opc) := rfl
  rw [h, State.complete]
  cases execute s.cfg.nwords s.cur s.opa s.opb s.opc <;> rfl

/-- A step whose move is a listed write. -/
theorem step_wr {c : Config} {s : State} (hc : s.cfg = c) (hr : s.resetAsserted = false) {off : Nat}
    (hoff : off < Config.windowSize) (ha : off % 4 = 0) (v : Word) (ts : List Turn) (rs : List Response) :
    step (s.withEnv (wr c off v :: ts) rs) = .next ((s.busWrite off v).withEnv ts (.writeOk :: rs)) := by
  subst hc
  have hacc : State.accessNext (s.withEnv (wr s.cfg off v :: ts) rs) (.write v) 32 off := ⟨hoff, rfl⟩
  rw [step_write hacc ha hr]
  simp

/-- A step whose move is a listed read. -/
theorem step_rd {c : Config} {s : State} (hc : s.cfg = c) (hr : s.resetAsserted = false) {off : Nat}
    (hoff : off < Config.windowSize) (ha : off % 4 = 0) (ts : List Turn) (rs : List Response) :
    step (s.withEnv (rd c off :: ts) rs) = .next (s.withEnv ts (.readOk (s.busRead off) :: rs)) := by
  subst hc
  have hacc : State.accessNext (s.withEnv (rd s.cfg off :: ts) rs) .read 32 off := ⟨hoff, rfl⟩
  rw [step_read hacc ha hr]
  simp

/-- A step in which a listed turn is the engine's. -/
theorem step_engineTurn {s : State} (hr : s.resetAsserted = false) (ts : List Turn) (rs : List Response) :
    step (s.withEnv (.engine :: ts) rs) = .next (s.poll.withEnv ts rs) := by
  have he : (s.withEnv (.engine :: ts) rs).engineNext = true := rfl
  rw [step_engine he, State.poll]
  have hb : (s.withEnv (.engine :: ts) rs).busy = s.busy := rfl
  rw [hb, withEnv_resetAsserted, hr]
  by_cases h : s.busy = true <;> simp [h]

/-- Register words lie inside the window (20_memory.md R50, R55). -/
theorem DataReg.base_lt (r : DataReg) {k : Nat} (hk : k < 256) : r.base + 4 * k < Config.windowSize := by
  cases r <;> simp only [DataReg.base, Config.windowSize] <;> omega

/-- Stepping through the writes of `WRW`. -/
theorem run_wrwFrom {c : Config} (hn : c.nwords ≤ 256) (r : DataReg) (k : Nat) (ws : List Word) (rest : List Turn)
    (rs : List Response) (s : State) (hc : s.cfg = c) (hk : k + ws.length ≤ c.nwords) (hr : s.resetAsserted = false) :
    Host.Core.run Sys2Proof.core ws.length (s.withEnv (wrwFrom c r k ws ++ rest) rs) =
      .next ((writeWords r k ws s).withEnv rest (List.replicate ws.length .writeOk ++ rs)) := by
  induction ws generalizing k s rs with
  | nil => rfl
  | cons w ws ih =>
    simp only [List.length_cons] at hk
    have hstep := step_wr hc hr (r.base_lt (k := k) (by omega)) (r.base_add_mod k) w (wrwFrom c r (k + 1) ws ++ rest) rs
    rw [List.length_cons, wrwFrom, List.cons_append, run_succ _ hstep,
      ih (k + 1) (.writeOk :: rs) (s.busWrite (r.base + 4 * k) w) (by simpa using hc) (by omega) (by simpa using hr),
      writeWords, List.replicate_succ', List.append_assoc]
    rfl

/-- Stepping through reads of register words: they change nothing (20_memory.md R57). -/
theorem run_rdwFrom {c : Config} (hn : c.nwords ≤ 256) (r : DataReg) (k n : Nat) (rest : List Turn)
    (rs : List Response) (s : State) (hc : s.cfg = c) (hk : k + n ≤ c.nwords) (hr : s.resetAsserted = false) :
    Host.Core.run Sys2Proof.core n (s.withEnv (rdwFrom c r k n ++ rest) rs) =
      .next (s.withEnv rest (((s.readWords r k n).map Response.readOk).reverse ++ rs)) := by
  induction n generalizing k rs with
  | zero => rfl
  | succ n ih =>
    have hstep := step_rd hc hr (r.base_lt (k := k) (by omega)) (r.base_add_mod k) (rdwFrom c r (k + 1) n ++ rest) rs
    rw [rdwFrom, List.cons_append, run_succ _ hstep, ih (k + 1) _ (by omega)]
    simp [State.readWords]

end

section

/-- The listed moves lead from the one block state to the other, whatever is listed after them and whatever has been
answered before. -/
def State.Leads (ts : List Turn) (s t : State) : Prop :=
  ∀ (rest : List Turn) (rs : List Response), ∃ rs' : List Response,
    Host.Core.run Sys2Proof.core ts.length (s.withEnv (ts ++ rest) rs) = .next (t.withEnv rest (rs' ++ rs))

theorem leads_nil (s : State) : State.Leads [] s s := fun _ _ => ⟨[], rfl⟩

theorem leads_append {ts us : List Turn} {s t u : State} (h : State.Leads ts s t) (h' : State.Leads us t u) :
    State.Leads (ts ++ us) s u := by
  intro rest rs
  obtain ⟨r1, h1⟩ := h (us ++ rest) rs
  obtain ⟨r2, h2⟩ := h' rest (r1 ++ rs)
  exact ⟨r2 ++ r1, by rw [List.length_append, List.append_assoc, run_add _ _ h1, h2, List.append_assoc]⟩

theorem leads_wr {c : Config} {s : State} (hc : s.cfg = c) (hr : s.resetAsserted = false) {off : Nat}
    (hoff : off < Config.windowSize) (ha : off % 4 = 0) (v : Word) : State.Leads [wr c off v] s (s.busWrite off v) :=
  fun rest rs => ⟨[.writeOk], run_succ 0 (step_wr hc hr hoff ha v rest rs)⟩

theorem leads_rd {c : Config} {s : State} (hc : s.cfg = c) (hr : s.resetAsserted = false) {off : Nat}
    (hoff : off < Config.windowSize) (ha : off % 4 = 0) : State.Leads [rd c off] s s :=
  fun rest rs => ⟨[.readOk _], run_succ 0 (step_rd hc hr hoff ha rest rs)⟩

theorem leads_engine {s : State} (hr : s.resetAsserted = false) : State.Leads [.engine] s s.poll :=
  fun rest rs => ⟨[], run_succ 0 (step_engineTurn hr rest rs)⟩

@[simp] theorem poll_resetAsserted (s : State) : s.poll.resetAsserted = s.resetAsserted := by
  rw [State.poll]
  split <;> simp

/-- The reads of `POLL` and the engine's turn among them (30_encoding.md R78). -/
theorem leads_poll {c : Config} (k : Nat) {s : State} (hc : s.cfg = c) (hr : s.resetAsserted = false) :
    State.Leads (pollTurns c k) s s.poll := by
  have hreads : State.Leads (List.replicate k (rd c 0x0008)) s s := by
    induction k with
    | zero => exact leads_nil s
    | succ k ih => exact leads_append (leads_rd hc hr (off := 8) (by decide) rfl) ih
  exact leads_append hreads
    (leads_append (leads_engine hr) (leads_rd (by simpa) (by simpa) (off := 8) (by decide) rfl))

@[simp] theorem writeReg_cfg (r : DataReg) (v : Nat) (s : State) : (writeReg r v s).cfg = s.cfg := by
  have h : ∀ (ws : List Word) (k : Nat) (s : State), (writeWords r k ws s).cfg = s.cfg := by
    intro ws
    induction ws with
    | nil => intro k s; rfl
    | cons w ws ih => intro k s; rw [writeWords, ih, busWrite_cfg]
  exact h _ _ _

@[simp] theorem writeReg_resetAsserted (r : DataReg) (v : Nat) (s : State) :
    (writeReg r v s).resetAsserted = s.resetAsserted := by
  have h : ∀ (ws : List Word) (k : Nat) (s : State), (writeWords r k ws s).resetAsserted = s.resetAsserted := by
    intro ws
    induction ws with
    | nil => intro k s; rfl
    | cons w ws ih => intro k s; rw [writeWords, ih, busWrite_resetAsserted]
  exact h _ _ _

@[simp] theorem runCommand_cfg (word : Word) (s : State) : (s.runCommand word).cfg = s.cfg :=
  (poll_cfg _).trans (busWrite_cfg _ _ _)

@[simp] theorem runCommand_resetAsserted (word : Word) (s : State) :
    (s.runCommand word).resetAsserted = s.resetAsserted :=
  (poll_resetAsserted _).trans (busWrite_resetAsserted _ _ _)

theorem wrwFrom_length (c : Config) (r : DataReg) (k : Nat) (ws : List Word) : (wrwFrom c r k ws).length = ws.length := by
  induction ws generalizing k with
  | nil => rfl
  | cons w ws ih => simp [wrwFrom, ih]

theorem rdwFrom_length (c : Config) (r : DataReg) (k n : Nat) : (rdwFrom c r k n).length = n := by
  induction n generalizing k with
  | zero => rfl
  | succ n ih => simp [rdwFrom, ih]

/-- The transactions of `WRW` (30_encoding.md R79). -/
theorem leads_wrw {c : Config} (hn : c.nwords ≤ 256) {s : State} (hc : s.cfg = c) (hr : s.resetAsserted = false)
    (r : DataReg) (v : Nat) : State.Leads (wrw c r v) s (writeReg r v s) := by
  intro rest rs
  refine ⟨List.replicate (toWords c.nwords v).length .writeOk, ?_⟩
  rw [wrw, wrwFrom_length, run_wrwFrom hn r 0 _ rest rs s hc (by simp) hr, writeReg, hc]

/-- The transactions of `RDW` (30_encoding.md R79). -/
theorem leads_rdw {c : Config} (hn : c.nwords ≤ 256) {s : State} (hc : s.cfg = c) (hr : s.resetAsserted = false)
    (r : DataReg) : State.Leads (rdw c r) s s := by
  intro rest rs
  refine ⟨((s.readWords r 0 c.nwords).map Response.readOk).reverse, ?_⟩
  rw [rdw, rdwFrom_length, run_rdwFrom hn r 0 c.nwords rest rs s hc (by simp) hr]

/-- The transactions of `RUN` (30_encoding.md R79). -/
theorem leads_run {c : Config} (word : Word) (k : Nat) {s : State} (hc : s.cfg = c) (hr : s.resetAsserted = false) :
    State.Leads (runTurns c word k) s (s.runCommand word) :=
  leads_append (leads_wr hc hr (off := 4) (by decide) rfl word)
    (leads_poll k ((busWrite_cfg _ _ _).trans hc) ((busWrite_resetAsserted _ _ _).trans hr))

/-- Moves that lead somewhere and a read of STATUS after them: what `CHECK` answers comes last. -/
theorem run_check {c : Config} {ts rest : List Turn} {s t : State} (h : State.Leads ts s t) (hc : t.cfg = c)
    (hr : t.resetAsserted = false) (hts : s.turns = ts ++ (rd c 0x0008 :: rest)) :
    ∃ rs : List Response, Host.Core.run Sys2Proof.core (ts.length + 1) s =
      .next { t with turns := rest, responses := .readOk t.status :: (rs ++ s.responses) } := by
  obtain ⟨rs, h1⟩ := h (rd c 0x0008 :: rest) s.responses
  rw [← hts, withEnv_self] at h1
  refine ⟨rs, ?_⟩
  rw [run_add _ _ h1, run_succ 0 (step_rd hc hr (off := 8) (by decide) rfl rest (rs ++ s.responses))]
  rfl

end

end Sys2Proof.Machine
end

