-- ==== Sys2Proof/Tests/Slice0.lean ====
section
/-! SUPPORT. Tests with expected results from the spec's tables and vectors, and the witnesses of the statements'
hypotheses. -/

namespace Sys2Proof.Tests

open Sys2Proof.Machine

/-! ### Well-formedness: ill-formed parameters are refused (00_scope.md R6) -/

theorem test_wf_width_zero : Config.wf { nwords := 0, base := 0, resetActiveHigh := false } = false := by decide
theorem test_wf_width_above_8192 : Config.wf { nwords := 257, base := 0, resetActiveHigh := false } = false := by decide
theorem test_wf_base_misaligned : Config.wf { nwords := 2, base := 0x1000, resetActiveHigh := true } = false := by decide

/-- The widest legal instance at an aligned base. -/
theorem test_wf_accepts : Config.wf { nwords := 256, base := 0x2000, resetActiveHigh := true } = true := by decide

/-! ### Decoding: words written out from 30_encoding.md R70 and R71, RSV then OP -/

theorem test_decode_egcd : decodeWord 0b0000000000000000000000000000_0001#32 = .command .egcd := by decide
theorem test_decode_modinv : decodeWord 0b0000000000000000000000000000_0010#32 = .command .modinv := by decide
theorem test_decode_modexp : decodeWord 0b0000000000000000000000000000_0011#32 = .command .modexp := by decide
theorem test_decode_encstep : decodeWord 0b0000000000000000000000000000_0100#32 = .command .encstep := by decide
theorem test_decode_decstep : decodeWord 0b0000000000000000000000000000_0101#32 = .command .decstep := by decide

/-- V-DEC0-4: RSV is not 0, so this is not EGCD. -/
theorem test_decode_rsv : decodeWord 0x00000013#32 = .illegal .reservedBitsSet := by decide

/-- V-DEC0-5: the top bit alone is enough. -/
theorem test_decode_rsv_top : decodeWord 0x80000001#32 = .illegal .reservedBitsSet := by decide

/-- V-DEC0-2. -/
theorem test_decode_op6 : decodeWord 0x00000006#32 = .illegal .reservedOpcode := by decide

/-- Lane 0 is the least significant byte (20_memory.md R53). -/
theorem test_decode_bytes : decodeBytes [0x05#8, 0x00#8, 0x00#8, 0x00#8, 0xAA#8] = (.command .decstep, [0xAA#8]) := by
  decide

/-- Three bytes are no command (R77). -/
theorem test_decode_truncated : (decodeBytes [0x01#8, 0x00#8, 0x00#8]).1 = .illegal .truncated := by decide

/-! ### Commands: vectors of 95_test_vectors.md, one step each -/

/-- W = 64, operands as given, the word latched, and 9 left in RES0 by an earlier command. -/
def started (word : Word) (a b c : Nat) : State :=
  { State.reset with
    opa := toWords 2 a, opb := toWords 2 b, opc := toWords 2 c, res0 := toWords 2 9, cur := word, busy := true }

/-- RES0, RES1, RES2 (signed) and STATUS of the state after one step. -/
def seen (s : State) : Option (Nat × Int × Int × Nat) :=
  match step s with
  | .next t => some (uint t.res0, sint t.res1, sint t.res2, t.status.toNat)
  | .fault _ => none
  | .refused _ => none

/-- V-EGCD-1. -/
theorem test_egcd_1 : seen (started 1 240 46 0) = some (2, -9, 47, 0x2) := by decide

/-- V-EGCD-13: large coefficients. -/
theorem test_egcd_13 : seen (started 1 12200160415121876738 7540113804746346429 0) =
    some (1, -2880067194370816120, 4660046610375530309, 0x2) := by decide +kernel

/-- V-MODINV-12: the raw coefficient is negative and normalised. -/
theorem test_modinv_12 : seen (started 2 17 3120 0) = some (2753, 0, 0, 0x2) := by decide

/-- V-MODINV-4: ILLEGAL_OPERAND before NO_INVERSE, RES0 unchanged. -/
theorem test_modinv_4 : seen (started 2 0 5 0) = some (9, 0, 0, 0x22) := by decide

/-- V-MODEXP-1. -/
theorem test_modexp_1 : seen (started 3 4 13 497) = some (445, 0, 0, 0x2) := by decide

/-- V-MODEXP-10: a full-width exponent. -/
theorem test_modexp_10 : seen (started 3 123456789 0xFFFFFFFFFFFFFFFF 0xFFFFFFFFFFFFFFC5) =
    some (14658935786348800494, 0, 0, 0x2) := by decide +kernel

/-- V-ENC-1: CHAR_TOO_LARGE, RES0 unchanged. -/
theorem test_encstep_1 : seen (started 4 150 7 100) = some (9, 0, 0, 0x42) := by decide

/-- V-ENC-2. -/
theorem test_encstep_2 : seen (started 4 65 7 4293918703) = some (2866650502, 0, 0, 0x2) := by decide

/-- V-DEC-1. -/
theorem test_decstep_1 : seen (started 5 2866650502 1226796471 4293918703) = some (65, 0, 0, 0x2) := by decide

/-- V-DEC-2: INVALID_CHAR, RES0 unchanged. -/
theorem test_decstep_2 : seen (started 5 0x110000 1 0x10000000000) = some (9, 0, 0, 0x52) := by decide

/-- V-DEC0-6: ILLEGAL_OPCODE wins over the operand check. -/
theorem test_illegal_6 : seen (started 0x14 3 5 0) = some (9, 0, 0, 0x12) := by decide

/-- The word presented to a machine at reset runs in its first step: EGCD with b = 0 (V-EGCD-5). -/
theorem test_presented : seen (State.reset.withFetchWord 32 1) = some (0, 0, 0, 0x22) := by decide

/-! ### The register window: vectors of 95_test_vectors.md section 2.7, one access each -/

/-- The state with one access to come. -/
def accessing (s : State) (k : AccessKind) (width off : Nat) : State :=
  { s with turns := [.access { kind := k, addr := s.cfg.base + off, width := width }] }

/-- The answer to the access, and the state after it. -/
def answered (s : State) : Option (List Response × State) :=
  match step s with
  | .next t => some (t.responses, { t with turns := [], responses := [] })
  | .fault _ => none
  | .refused _ => none

/-- V-BUS-1. -/
theorem test_bus_1 : answered (accessing State.reset .read 32 0x000C) = some ([.readOk 2], State.reset) := by decide

/-- V-BUS-4: word 2 >= NWORDS. -/
theorem test_bus_4 : answered (accessing State.reset (.write 0xFFFFFFFF) 32 0x0408) =
    some ([.writeOk], State.reset) := by decide

/-- V-BUS-5: an 8-bit write. -/
theorem test_bus_5 : answered (accessing State.reset (.write 1) 8 0x0400) = some ([.writeError], State.reset) := by
  decide

/-- V-BUS-6: a misaligned read. -/
theorem test_bus_6 : answered (accessing State.reset .read 32 0x0402) = some ([.readError 0], State.reset) := by decide

/-- V-BUS-9: IE set, no reset. -/
theorem test_bus_9 : answered (accessing State.reset (.write 0xFFFFFFFD) 32 0x0000) =
    some ([.writeOk], { State.reset with ie := true }) := by decide

/-- V-BUS-11: dropped while busy. -/
theorem test_bus_11 : answered (accessing (started 1 240 46 0) (.write 5) 32 0x0400) =
    some ([.writeOk], { started 1 240 46 0 with wbusy := true }) := by decide

/-- V-BUS-13: only the addressed word changes. -/
theorem test_bus_13 :
    (answered (accessing { State.reset with opa := toWords 2 0x100000000 } (.write 5) 32 0x0400)).map
      (fun p => uint p.2.opa) = some 0x100000005 := by decide

/-! ### Host procedures: vectors of 95_test_vectors.md section 2.8 -/

/-- V-HOST-3. -/
theorem test_host_3 : (generateValidExponents 20 State.reset).1 = .ok [7, 9, 11, 13, 17] := by decide +kernel

/-- V-HOST-7. -/
theorem test_host_7 : (assembleKeys 61 53 State.reset).1 = .ok { e := 7, d := 1783, n := 3233 } := by decide +kernel

/-- V-HOST-8. -/
theorem test_host_8 : (assembleKeys 5 7 State.reset).1 = .error .degenerateKeyPair := by decide +kernel

/-- V-HOST-11. -/
theorem test_host_11 : (encrypt [65, 72, 105] 7 3233 State.reset).1 = .ok [1317, 1087, 3020] := by decide +kernel

/-! ### Witnesses of the statements' hypotheses -/

/-- EGCD(240, 46) in flight. -/
def busyState : State := started 1 240 46 497

/-- An idle block with operands, results and a completed error behind it. -/
def idleState : State := { busyState with busy := false, done := true, err := 4, ie := true }

/-- A block held in reset. -/
def heldState : State := { State.reset with resetAsserted := true }

theorem busyState_sized : busyState.Sized := ⟨by decide, by intro r; cases r <;> decide⟩
theorem idleState_sized : idleState.Sized := ⟨by decide, by intro r; cases r <;> decide⟩

theorem busyState_inv : busyState.Inv :=
  ⟨by decide, by intro r; cases r <;> decide, by decide, by decide, by decide, by decide⟩

theorem heldState_inv : heldState.Inv :=
  ⟨by decide, by intro r; cases r <;> decide, by decide, by decide, by decide, by decide⟩

theorem witness_EncodedBytesDecodeBack : ∀ i : Instr, i.wf = true := by intro i; cases i <;> rfl

/-- Both kinds of illegal word, at the ends of their ranges. -/
theorem witness_OnlyTheCommandWordsDecode :
    rsvField 0x10#32 ≠ 0 ∧ rsvField 0x80000001#32 ≠ 0 ∧
    (rsvField 0#32 = 0 ∧ opField 0#32 = 0) ∧ (rsvField 6#32 = 0 ∧ 6 ≤ (opField 6#32).toNat) ∧
    (rsvField 15#32 = 0 ∧ 6 ≤ (opField 15#32).toNat) := by decide

/-- For each command, with no move listed and with the engine's turn listed. -/
theorem witness_EngineStepRunsTheDecodedCommand : ∀ i : Instr, ∀ ts ∈ [[], [Turn.engine]],
    let s : State := { busyState with cur := encode i, turns := ts }
    s.engineNext = true ∧ s.busy = true ∧ s.resetAsserted = false ∧ decodeWord s.cur = .command i := by
  intro i
  cases i <;> decide

/-- Also for CompletionCodeFollowsThePriority; the two ends of `Execute`. -/
theorem witness_CompletionWritesExecuteResults :
    (busyState.engineNext = true ∧ busyState.busy = true ∧ busyState.resetAsserted = false) ∧
    (execute 2 6 busyState.opa busyState.opb busyState.opc = .raise .illegalOpcode) ∧
    (execute 2 3 [4, 0] [13, 0] [497, 0] = .complete { res0 := some [445, 0], res1 := none, res2 := none }) :=
  ⟨by decide, by decide, rfl⟩

theorem witness_IllegalWordsCompleteWithIllegalOpcode : ∀ w ∈ [0x0#32, 0x6#32, 0xF#32, 0x13#32, 0x80000001#32],
    let s : State := { busyState with cur := w }
    s.engineNext = true ∧ s.busy = true ∧ s.resetAsserted = false ∧
      (opField s.cur = 0 ∨ 6 ≤ (opField s.cur).toNat ∨ rsvField s.cur ≠ 0) := by
  intro w h
  simp only [List.mem_cons, List.not_mem_nil, or_false] at h
  rcases h with rfl | rfl | rfl | rfl | rfl <;> decide

theorem witness_EngineWithoutCommandChangesNothing :
    (idleState.engineNext = true ∧ idleState.busy = false) ∧
    (heldState.engineNext = true ∧ heldState.resetAsserted = true) := by decide

/-- An access just outside the window, one to its last byte, and one during reset. -/
theorem witness_StepStopsOnlyOnForbiddenAccess :
    Config.decodes Config.reference 0x2000 = false ∧ Config.decodes Config.reference 0x1FFF = true ∧
    Config.decodes { nwords := 2, base := 0x2000, resetActiveHigh := true } 0x1FFF = false ∧
    heldState.resetAsserted = true := by decide

theorem witness_StartLatchesAnyWord :
    (accessing idleState (.write 0x13) 32 0x0004).accessNext (.write 0x13) 32 0x0004 ∧
    idleState.resetAsserted = false ∧ idleState.busy = false := ⟨⟨by decide, rfl⟩, by decide, by decide⟩

/-- The accesses of each clause: dropped, CTRL, STATUS, ignored; at the first and last word of a window. -/
theorem witness_WritesWhileBusyAreDropped :
    (busyState.cfg.wf = true ∧ busyState.resetAsserted = false ∧ busyState.busy = true) ∧
    (∀ off ∈ [0x0004, 0x0400, 0x0C04, 0x0000, 0x0008, 0x000C, 0x1000, 0x1804, 0x0408, 0x1BFC],
      (accessing busyState (.write 3) 32 off).accessNext (.write 3) 32 off) ∧
    (0x0400 = DataReg.opa.base + 4 * 0 ∧ 0x0C04 = DataReg.opc.base + 4 * 1 ∧
      DataReg.opa.isOperand = true ∧ DataReg.opc.isOperand = true) ∧
    (0x1000 = DataReg.res0.base + 4 * 0 ∧ 0x1804 = DataReg.res2.base + 4 * 1 ∧ DataReg.res2.isOperand = false) ∧
    (0x0408 = DataReg.opa.base + 4 * busyState.cfg.nwords ∧ 0x1BFC = DataReg.res2.base + 4 * 255) :=
  ⟨by decide, fun off h => ⟨by revert off; decide, rfl⟩, by decide, by decide, by decide⟩

/-- Offsets on both sides of each edge between mapped and unmapped (20_memory.md R55, R56). -/
theorem witness_HostAccessTable :
    (idleState.cfg.wf = true ∧ idleState.resetAsserted = false ∧ idleState.busy = false) ∧
    (∀ off ∈ [0x0000, 0x0004, 0x0008, 0x000C, 0x0400, 0x0804, 0x1000, 0x1804, 0x0010, 0x03FC, 0x0408, 0x1C00, 0x1FFC],
      off % 4 = 0 ∧ (accessing idleState .read 32 off).accessNext .read 32 off ∧
      (accessing idleState (.write 2) 32 off).accessNext (.write 2) 32 off) ∧
    (∀ off ∈ [0x0010, 0x03FC, 0x0408, 0x1C00, 0x1FFC], Unmapped idleState.cfg.nwords off) ∧
    ((2#32).getLsbD 1 = true ∧ (1#32).getLsbD 1 = false) := by
  refine ⟨by decide, fun off h => ⟨by revert off; decide, ⟨by revert off; decide, rfl⟩, by revert off; decide, rfl⟩,
    fun off h => ⟨by revert off; decide, by revert off; decide, by revert off; decide, by revert off; decide, ?_⟩,
    by decide⟩
  intro r k hk
  have h2 : idleState.cfg.nwords = 2 := rfl
  have hk : k < 2 := by rw [h2] at hk; exact hk
  simp only [List.mem_cons, List.not_mem_nil, or_false] at h
  cases r <;> simp only [DataReg.base] <;> omega

/-- A width other than 32 and a misaligned offset, up to the last byte of the window. -/
theorem witness_OtherAccessesGetABusError : ∀ p ∈ [(8, 0x0400), (16, 0x0000), (64, 0x0008), (32, 0x0402), (32, 0x1FFF)],
    (p.1 ≠ 32 ∨ p.2 % 4 ≠ 0) ∧ (accessing busyState .read p.1 p.2).accessNext .read p.1 p.2 ∧
      (accessing busyState (.write 1) p.1 p.2).accessNext (.write 1) p.1 p.2 ∧ busyState.resetAsserted = false :=
  fun p h => ⟨by revert p; decide, ⟨by revert p; decide, rfl⟩, ⟨by revert p; decide, rfl⟩, by decide⟩

/-- Also for the soft-reset clauses of ResetLeavesTheTableValues and SoftResetAbandonsTheCommand, with a command in
flight. -/
theorem witness_ControlRegister : ∀ v ∈ [0x0#32, 0x1#32, 0x2#32, 0xFFFFFFFF#32],
    (accessing busyState (.write v) 32 0x0000).accessNext (.write v) 32 0x0000 ∧ busyState.resetAsserted = false ∧
      (v.getLsbD 1 = true ∨ v.getLsbD 1 = false) :=
  fun v _ => ⟨⟨by decide, rfl⟩, by decide, by cases v.getLsbD 1 <;> simp⟩

theorem witness_StatusRegister :
    (accessing busyState (.write 6) 32 0x0008).accessNext (.write 6) 32 0x0008 ∧ busyState.resetAsserted = false ∧
    busyState.Inv := ⟨⟨by decide, rfl⟩, by decide, busyState_inv⟩

theorem witness_ParamRegister :
    busyState.cfg.wf = true ∧ Config.wf { nwords := 256, base := 0, resetActiveHigh := false } = true := by decide

theorem witness_InterruptIsALevel :
    (idleState.busy = false ∧ busyState.busy = true) ∧ (idleState.ie = true ∧ idleState.done = true) ∧
    ((2#32).getLsbD 1 = true ∧ (1#32).getLsbD 1 = false) := by decide

/-- The first word of OPA and the last of OPC. -/
theorem witness_OperandWriteChangesOneWord : ∀ p ∈ [(DataReg.opa, 0), (DataReg.opc, 1)],
    idleState.Sized ∧ p.2 < idleState.cfg.nwords ∧ p.1.isOperand = true ∧
      (accessing idleState (.write 5) 32 (p.1.base + 4 * p.2)).accessNext (.write 5) 32 (p.1.base + 4 * p.2) ∧
      idleState.resetAsserted = false ∧ idleState.busy = false :=
  fun p h => ⟨idleState_sized, by revert p; decide, by revert p; decide, ⟨by revert p; decide, rfl⟩, by decide,
    by decide⟩

theorem witness_RegisterWordsAreLittleEndian :
    idleState.Sized ∧ 0 < idleState.cfg.nwords ∧ 1 < idleState.cfg.nwords ∧ DataReg.opb.isOperand = true ∧
    idleState.busy = false ∧ 2 ^ 64 - 1 < 2 ^ idleState.cfg.width := ⟨idleState_sized, by decide⟩

theorem witness_ByteLanesAreLittleEndian : 0 < 4 ∧ 3 < 4 := by decide

theorem witness_ResetLeavesTheTableValues :
    State.turns { busyState with turns := [.resetPin busyState.cfg.resetActiveHigh] } =
      [.resetPin busyState.cfg.resetActiveHigh] := rfl

/-- The pin asserted over a command in flight, an idle turn and an access while held, and the release. -/
theorem witness_HardwareResetAbandonsTheCommand :
    (heldState.resetAsserted = true ∧ heldState.engineNext = true) ∧
    (accessing heldState .read 32 0x0008).accessNext .read 32 0x0008 ∧
    (State.turns { heldState with turns := [.resetPin !heldState.cfg.resetActiveHigh] }).head? =
      some (.resetPin !heldState.cfg.resetActiveHigh) ∧ busyState.resetAsserted = false :=
  ⟨by decide, ⟨by decide, rfl⟩, rfl, by decide⟩

/-- The ends of the ranges of 00_scope.md R6. -/
theorem witness_InvariantHoldsAtReset :
    Config.wf { nwords := 1, base := 0x2000, resetActiveHigh := true } = true ∧
    Config.wf { nwords := 256, base := 0, resetActiveHigh := false } = true := by decide

/-- Also for OperandsAreStableInFlight, ResultsChangeOnlyAtCompletionOrReset and ParametersAndResponsesAreKept. -/
theorem witness_EveryStepKeepsTheInvariant :
    (busyState.Inv ∧ ∃ t, step busyState = .next t) ∧ (heldState.Inv ∧ ∃ t, step heldState = .next t) ∧
    busyState.busy = true := ⟨⟨busyState_inv, _, rfl⟩, ⟨heldState_inv, _, rfl⟩, rfl⟩

/-- A step of each kind: nothing, a start, and the three resets of `State.resetNext`. -/
theorem witness_ResultsAndErrorStayWhileIdle :
    idleState.busy = false ∧ (∃ t, step idleState = .next t) ∧
    (∃ t, step (accessing idleState (.write 1) 32 0x0004) = .next t) ∧
    (∃ t, step (accessing idleState (.write 2) 32 0x0000) = .next t) ∧
    (∃ t, step { idleState with turns := [.resetPin false] } = .next t) ∧
    ∃ t, step { heldState with turns := [.resetPin true] } = .next t :=
  ⟨rfl, ⟨_, rfl⟩, ⟨_, rfl⟩, ⟨_, rfl⟩, ⟨_, rfl⟩, _, rfl⟩

/-- The three resets of `State.resetNext`, which O26 to O28 name: over a command in flight by a soft reset and by the pin,
and the release of a held block. -/
theorem witness_resetNext :
    (accessing busyState (.write 2) 32 0x0000).resetNext ∧
    State.resetNext { busyState with turns := [.resetPin false] } ∧
    State.resetNext { heldState with turns := [.resetPin true] } :=
  ⟨.inr (.inr ⟨2, ⟨by decide, rfl⟩, by decide, by decide⟩), .inl rfl, .inr (.inl ⟨rfl, true, rfl⟩)⟩

/-- A read, a dropped write, an interrupt mask and a clear of WBUSY, none of which cancels. -/
theorem witness_CommandInFlightCompletes :
    busyState.busy = true ∧ busyState.resetAsserted = false ∧
    ∀ t ∈ [rd busyState.cfg 0x0008, wr busyState.cfg 0x0400 5, wr busyState.cfg 0x0000 1, wr busyState.cfg 0x0008 4,
      Turn.engine], Turn.keepsCommand busyState.cfg t = true := by decide

theorem witness_RacingWriteHasBothOutcomes :
    busyState.Sized ∧ busyState.busy = true ∧ busyState.resetAsserted = false ∧ DataReg.opa.isOperand = true ∧
    0 < busyState.cfg.nwords := ⟨busyState_sized, by decide⟩

/-- Both clauses; also for EgcdResultsSatisfyBezout, EgcdCoefficientsAreBounded. -/
theorem witness_EgcdFollowsItsPseudocode :
    (busyState.Sized ∧ uint busyState.opb ≠ 0) ∧ uint (started 1 7 0 0).opb = 0 := ⟨⟨busyState_sized, by decide⟩, by decide⟩

/-- Also for EgcdLoopKeepsItsInvariants and EgcdLastCoefficients. -/
theorem witness_EgcdLoopTerminates : (egcdInit 240 46).b ≠ 0 ∧ 0 < 46 ∧ 46 + 1 ≤ 47 := by decide

theorem witness_EgcdCornerCases :
    (0 < 5) ∧ (0 < 4 ∧ 4 < 8 ∧ 4 ∣ 8) ∧ (0 < 17 ∧ 17 < 51 ∧ 17 ∣ 51) ∧ (0 < 46 ∧ 46 < 240) ∧ 32 ≤ 64 := by decide

theorem witness_ModinvReturnsTheInverse :
    (started 2 17 3120 0).Sized ∧ 1 ≤ uint (started 2 17 3120 0).opa ∧ 2 ≤ uint (started 2 17 3120 0).opb ∧
    Nat.gcd (uint (started 2 17 3120 0).opa) (uint (started 2 17 3120 0).opb) = 1 :=
  ⟨⟨by decide, by intro r; cases r <;> decide⟩, by decide +kernel⟩

theorem witness_ModPowIsTheResidue : 1 ≤ 1 ∧ 1 ≤ 497 := by decide

theorem witness_PowerCommandsArePure :
    busyState.Sized ∧ idleState.cfg.nwords = busyState.cfg.nwords ∧ idleState.opa = busyState.opa ∧
    idleState.opb = busyState.opb ∧ idleState.opc = busyState.opc := ⟨busyState_sized, by decide⟩

/-- A command that completes and one that ends in an error. -/
theorem witness_CommandFrame :
    (∃ t, exec .modexp busyState = .next t ∧ t.err = 0) ∧ (∃ t, exec .encstep (started 4 150 7 100) = .next t ∧ t.err ≠ 0) :=
  ⟨⟨_, rfl, by decide +kernel⟩, _, rfl, by decide⟩

/-- From a busy block with two polls of the command in flight, and from an idle one. -/
theorem witness_RunCmdIsItsBusTransactions :
    ∀ p ∈ [(busyState, (1#32, none, 2, 3)), (idleState, (3#32, some 497, 0, 0))],
      p.1.cfg.wf = true ∧ p.1.resetAsserted = false ∧
      ∃ s : State, s = { p.1 with turns := runCmdTurns p.1.cfg p.2.1 240 46 p.2.2.1 p.2.2.2.1 p.2.2.2.2 ++ [.engine] } ∧
        s.turns = runCmdTurns s.cfg p.2.1 240 46 p.2.2.1 p.2.2.2.1 p.2.2.2.2 ++ [.engine] := by
  intro p h
  simp only [List.mem_cons, List.not_mem_nil, or_false] at h
  rcases h with rfl | rfl <;> exact ⟨by decide, by decide, _, rfl, rfl⟩

theorem witness_RdwReadsEveryWord :
    ∃ s : State, s.Sized ∧ s.resetAsserted = false ∧ s.turns = rdw s.cfg .res0 ++ [.engine] :=
  ⟨{ idleState with turns := rdw idleState.cfg .res0 ++ [.engine] }, ⟨by decide, by intro r; cases r <;> decide⟩, rfl, rfl⟩

theorem witness_EgcdAndModInverseAreSingleCommands :
    idleState.Sized ∧ idleState.resetAsserted = false ∧ 17 < 2 ^ idleState.cfg.width ∧ 3120 < 2 ^ idleState.cfg.width ∧ 0 < 17 ∧ 1 < 3120 ∧
    Nat.gcd 17 3120 = 1 ∧ Nat.gcd 2 4 ≠ 1 := ⟨idleState_sized, by decide⟩

/-- Not held in reset and idle: the premises of the statements about procedures that let a step take the procedures' accesses. -/
theorem idleState_ready : idleState.Ready := ⟨by decide, by decide⟩

/-- A phi with candidates and one without; also for SelectionTakesTheFirstCandidate. -/
theorem witness_GeneratorYieldsTheCandidates :
    idleState.Sized ∧ idleState.resetAsserted = false ∧ 2 < 24 ∧ 24 < 2 ^ idleState.cfg.width ∧ IsFirstCandidate 24 7 ∧ ∀ e, ¬IsCandidate 8 e := by
  refine ⟨idleState_sized, by decide, by decide, by decide, ⟨by unfold IsCandidate; decide, fun e h => h.2.1⟩, ?_⟩
  rintro e ⟨_, h7, h8, _, hne⟩
  omega

/-- p = 5, q = 7 gives d = e, p = 11, q = 13 does not, p = 3, q = 5 has no candidate. -/
theorem witness_KeyAssemblyGivesAKeyPair :
    (idleState.Sized ∧ idleState.resetAsserted = false) ∧
    (2 < (5 - 1) * (7 - 1) ∧ 5 * 7 < 2 ^ idleState.cfg.width ∧ 7 * 7 % ((5 - 1) * (7 - 1)) = 1) ∧
    (2 < (11 - 1) * (13 - 1) ∧ 11 * 13 < 2 ^ idleState.cfg.width ∧ 7 * 7 % ((11 - 1) * (13 - 1)) ≠ 1 ∧
      IsFirstCandidate 120 7) ∧
    (2 < (3 - 1) * (5 - 1) ∧ 3 * 5 < 2 ^ idleState.cfg.width) :=
  ⟨⟨idleState_sized, by decide⟩, by decide, ⟨by decide, by decide, by decide, ⟨by unfold IsCandidate; decide, fun e h => h.2.1⟩⟩,
    by decide⟩

/-- Both clauses, with the largest code point; the values are those of V-HOST-11 and V-HOST-12. -/
theorem witness_EncryptIsElementwise :
    idleState.Sized ∧ idleState.Ready ∧ 0 < 3233 ∧ 3233 < 2 ^ idleState.cfg.width ∧
    7 < 2 ^ idleState.cfg.width ∧ (∀ m ∈ [65, 72, 105, 0x10FFFF], m ≤ 0x10FFFF) ∧ (∀ m ∈ [65, 72, 105], m < 3233) ∧
    ∃ m ∈ [65, 150, 66], 100 ≤ m := ⟨idleState_sized, idleState_ready, by decide⟩

/-- Both clauses at the bound of 42_modexp.md R123. -/
theorem witness_DecryptIsElementwise :
    idleState.Sized ∧ idleState.Ready ∧ 0 < 2 ^ 40 ∧ 2 ^ 40 < 2 ^ idleState.cfg.width ∧
    1 < 2 ^ idleState.cfg.width ∧ (∀ c ∈ [0x10FFFF, 0x110000], c < 2 ^ idleState.cfg.width) ∧
    (∀ c ∈ [0x10FFFF], c ^ 1 % 2 ^ 40 ≤ 0x10FFFF) ∧ ∃ c ∈ [0x110000], 0x10FFFF < c ^ 1 % 2 ^ 40 :=
  ⟨idleState_sized, idleState_ready, by decide +kernel⟩

/-- The key of V-HOST-7. -/
theorem witness_DecryptInvertsEncrypt :
    idleState.Sized ∧ idleState.Ready ∧ Nat.Prime 61 ∧ Nat.Prime 53 ∧ 61 ≠ 53 ∧
    61 * 53 < 2 ^ idleState.cfg.width ∧ 7 < 2 ^ idleState.cfg.width ∧ 1783 < 2 ^ idleState.cfg.width ∧
    7 * 1783 ≡ 1 [MOD (61 - 1) * (53 - 1)] ∧ ∀ m ∈ [65, 72, 105], m < 61 * 53 ∧ m ≤ 0x10FFFF :=
  ⟨idleState_sized, idleState_ready, by norm_num, by norm_num, by decide⟩

theorem witness_EmptyTextNeedsNoCommand : idleState.Ready := idleState_ready

theorem witness_CodecElementIsItsBusTransactions :
    ∃ s : State, s.cfg.wf = true ∧ s.resetAsserted = false ∧ s.turns = elementTurns s.cfg 4 65 2 ++ [.engine] :=
  ⟨{ idleState with turns := elementTurns idleState.cfg 4 65 2 ++ [.engine] }, by decide, by decide, rfl⟩

/-- n = 100: the element 65 encrypts, then 150 is too large (V-HOST-12), polled twice; and a decryption that ends well. -/
theorem witness_CodecsAreTheirBusTransactions :
    (∃ u, encrypt [65] 7 100 idleState = (.ok [25], u) ∧ (stepElement 4 150 u).check ≠ 0) ∧
    (∃ u, decrypt [1317] 1783 3233 idleState = (.ok [65], u)) ∧
    idleState.cfg.wf = true ∧ idleState.resetAsserted = false ∧
    (∃ s : State, s = { idleState with turns := keyTurns idleState.cfg 7 100 ++
        (codecTurns idleState.cfg 4 [(65, 0)] ++ (elementTurns idleState.cfg 4 150 2 ++ [])) } ∧
      s.turns = keyTurns s.cfg 7 100 ++ (codecTurns s.cfg 4 [(65, 0)] ++ (elementTurns s.cfg 4 150 2 ++ []))) :=
  ⟨⟨(encrypt [65] 7 100 idleState).2, by decide +kernel, by decide +kernel⟩,
    ⟨(decrypt [1317] 1783 3233 idleState).2, by decide +kernel⟩, by decide, by decide, _, rfl, rfl⟩

end Sys2Proof.Tests
end

section
/-! PROOFS. What the reset state satisfies, and what no step changes: the parameters, and the record of moves and
responses but for the move taken and its answer. -/

namespace Sys2Proof.Machine

section

@[simp] theorem driveReset_cfg (level : Bool) (s : State) : (s.driveReset level).cfg = s.cfg := by
  obtain ⟨-, b, h⟩ | ⟨-, h⟩ := driveReset_cases level s <;> simp [h]

@[simp] theorem driveReset_turns (level : Bool) (s : State) : (s.driveReset level).turns = s.turns := by
  obtain ⟨-, b, h⟩ | ⟨-, h⟩ := driveReset_cases level s <;> simp [h]

@[simp] theorem driveReset_responses (level : Bool) (s : State) : (s.driveReset level).responses = s.responses := by
  obtain ⟨-, b, h⟩ | ⟨-, h⟩ := driveReset_cases level s <;> simp [h]

@[simp] theorem portAccess_cfg (k : AccessKind) (width off : Nat) (s : State) :
    (s.portAccess k width off).cfg = s.cfg := by
  obtain ⟨r, h⟩ | ⟨v, -, -, -, h⟩ := portAccess_cases k width off s <;> simp [h]

@[simp] theorem portAccess_turns (k : AccessKind) (width off : Nat) (s : State) :
    (s.portAccess k width off).turns = s.turns := by
  obtain ⟨r, h⟩ | ⟨v, -, -, -, h⟩ := portAccess_cases k width off s <;> simp [h]

end

/-- An access to the window is answered exactly once (20_memory.md R52, 10_state.md R36). -/
theorem portAccess_responses (k : AccessKind) (width off : Nat) (s : State) :
    ∃ r, (s.portAccess k width off).responses = r :: s.responses := by
  obtain ⟨r, h⟩ | ⟨v, -, -, -, h⟩ := portAccess_cases k width off s
  · exact ⟨r, by simp [h]⟩
  · exact ⟨.writeOk, by simp [h]⟩

/-- The reset state of a configuration in the ranges of 00_scope.md R6 meets the invariant. -/
theorem resetOf_inv {c : Config} (hc : c.wf = true) : (State.resetOf c).Inv where
  cfgWf := hc
  regLen r := by cases r <;> exact zeroReg_length c.nwords
  busyNotDone _ := rfl
  busyNoErr _ := rfl
  errKnown := by simp
  resetHeld _ := rfl

/-- The reference configuration is in the ranges of R6 (00_scope.md R7). -/
theorem reference_wf : Config.reference.wf = true := by decide

/-- Settles O24: the reference configuration is one of those in range. -/
theorem invariantHoldsAtReset : Obligations.InvariantHoldsAtReset :=
  ⟨resetOf_inv reference_wf, fun _ hc => resetOf_inv hc⟩

/-- Settles O29, by the agent that moves: only the answer to an access adds to the responses. -/
theorem parametersAndResponsesAreKept : Obligations.ParametersAndResponsesAreKept := by
  intro s t h
  obtain ⟨-, rfl⟩ | ⟨a, ha, -, -, rfl⟩ | ⟨level, -, rfl⟩ := step_cases h
  · split_ifs <;> simp
  · obtain ⟨r, hr⟩ := portAccess_responses a.kind a.width (a.addr - s.cfg.base) s.popTurn
    exact ⟨by simp, by simp, .inr ⟨a, r, ha, by simpa using hr⟩⟩
  · simp

end Sys2Proof.Machine
end

section
/-! PROOFS. What a reset leaves, what every step can do seen from the block, and the invariant every step keeps. -/

namespace Sys2Proof.Machine

/-- What a reset leaves (10_state.md R33): the reset values, and whatever is not the block's own. -/
def State.afterReset (c : Config) (held : Bool) (ts : List Turn) (rs : List Response) : State :=
  { State.resetOf c with resetAsserted := held, turns := ts, responses := rs }

section

variable (c : Config) (held : Bool) (ts : List Turn) (rs : List Response)

@[simp] theorem State.afterReset_cfg : (State.afterReset c held ts rs).cfg = c := rfl
@[simp] theorem State.afterReset_ie : (State.afterReset c held ts rs).ie = false := rfl
@[simp] theorem State.afterReset_busy : (State.afterReset c held ts rs).busy = false := rfl
@[simp] theorem State.afterReset_done : (State.afterReset c held ts rs).done = false := rfl
@[simp] theorem State.afterReset_wbusy : (State.afterReset c held ts rs).wbusy = false := rfl
@[simp] theorem State.afterReset_err : (State.afterReset c held ts rs).err = 0 := rfl
@[simp] theorem State.afterReset_cur : (State.afterReset c held ts rs).cur = 0 := rfl
@[simp] theorem State.afterReset_getReg (r : DataReg) :
    (State.afterReset c held ts rs).getReg r = zeroReg c.nwords := by cases r <;> rfl

end

/-- A reset of the block, in terms of the reset values alone. -/
theorem resetBlock_eq_afterReset (s : State) :
    s.resetBlock = State.afterReset s.cfg s.resetAsserted s.turns s.responses := rfl

@[simp] theorem writeCtrl_srst (s : State) {v : Word} (hv : v.getLsbD 1 = true) : s.writeCtrl v = s.resetBlock := by
  rw [State.writeCtrl, if_pos hv]

/-- What the block sees of a step: the engine completes the command in flight, or nothing but the record of moves and
responses changes, or an accepted write that is no soft reset takes effect, or a reset. -/
theorem step_effect {s t : State} (h : step s = .next t) :
    (s.engineNext = true ∧ s.busy = true ∧ s.resetAsserted = false ∧ t = s.popTurn.complete) ∨
    t = s.popTurn ∨
    (s.resetAsserted = false ∧ ∃ r, t = s.popTurn.respond r) ∨
    (s.resetAsserted = false ∧ ∃ off v, s.accessNext (.write v) 32 off ∧ off % 4 = 0 ∧
      ¬(off = 0 ∧ v.getLsbD 1 = true) ∧ t = (s.popTurn.busWrite off v).respond .writeOk) ∨
    (s.resetNext ∧ ∃ held rs, t = State.afterReset s.cfg held s.turns.tail rs) := by
  obtain ⟨he, rfl⟩ | ⟨a, ha, hdec, hr, rfl⟩ | ⟨level, hpin, rfl⟩ := step_cases h
  · split_ifs with hc
    · exact .inl ⟨he, hc.1, hc.2, rfl⟩
    · exact .inr (.inl rfl)
  · have hacc := accessNext_of_head ha hdec
    obtain ⟨r, hp⟩ | ⟨v, hk, hw, hal, hp⟩ := portAccess_cases a.kind a.width (a.addr - s.cfg.base) s.popTurn
    · exact .inr (.inr (.inl ⟨hr, r, hp⟩))
    · rw [hk, hw] at hacc
      by_cases hsrst : a.addr - s.cfg.base = 0 ∧ v.getLsbD 1 = true
      · obtain ⟨h0, hv⟩ := hsrst
        rw [h0] at hacc
        refine .inr (.inr (.inr (.inr ⟨.inr (.inr ⟨v, hacc, hr, hv⟩), s.resetAsserted, .writeOk :: s.responses, ?_⟩)))
        rw [hp, h0, busWrite_ctrl, writeCtrl_srst _ hv, resetBlock_eq_afterReset]
        rfl
      · exact .inr (.inr (.inr (.inl ⟨hr, _, v, hacc, hal, hsrst, hp⟩)))
  · obtain ⟨hwhy, held, hd⟩ | ⟨-, hd⟩ := driveReset_cases level s.popTurn
    · refine .inr (.inr (.inr (.inr ⟨?_, held, s.responses, hd⟩)))
      obtain hlevel | hheld := hwhy
      · exact .inl (hlevel ▸ hpin)
      · exact .inr (.inl ⟨hheld, level, hpin⟩)
    · exact .inr (.inl hd)

/-! ### The invariant -/

/-- Every reset leaves a state of the invariant (70_reset_and_hazards.md R190, R191). -/
theorem afterReset_inv {c : Config} (hc : c.wf = true) (held : Bool) (ts : List Turn) (rs : List Response) :
    (State.afterReset c held ts rs).Inv where
  cfgWf := hc
  regLen r := by simp
  busyNotDone := by simp
  busyNoErr := by simp
  errKnown := by simp
  resetHeld _ := rfl

theorem popTurn_inv {s : State} (h : s.Inv) : s.popTurn.Inv where
  cfgWf := h.cfgWf
  regLen r := by simpa using h.regLen r
  busyNotDone := h.busyNotDone
  busyNoErr := h.busyNoErr
  errKnown := h.errKnown
  resetHeld hr := congrArg State.popTurn (h.resetHeld hr)

/-- While reset is released, what it would hold at the reset values is no condition. -/
theorem inv_of_released {s : State} (hr : s.resetAsserted = false) (hcfg : s.cfg.wf = true)
    (hlen : ∀ r, (s.getReg r).length = s.cfg.nwords) (hdone : s.busy = true → s.done = false)
    (hnoerr : s.busy = true → s.err = 0) (herr : s.err.toNat ≤ 5) : s.Inv :=
  ⟨hcfg, hlen, hdone, hnoerr, herr, by simp [hr]⟩

/-- A completion ends with registers of the right size and a known code (60_exceptions.md R160). -/
theorem complete_inv {s : State} (h : s.Inv) (hr : s.resetAsserted = false) : s.complete.Inv := by
  refine inv_of_released (by simpa using hr) (by simpa using h.cfgWf) (fun r => ?_) (by simp) (by simp) ?_
  · rw [complete_cfg]
    exact finish_getReg_length (execute_sized ..) h.regLen r
  · rw [complete_err]
    exact code_le_five _

theorem respond_inv {s : State} (h : s.Inv) (hr : s.resetAsserted = false) (r : Response) : (s.respond r).Inv :=
  inv_of_released hr h.cfgWf (fun q => by simpa using h.regLen q) h.busyNotDone h.busyNoErr h.errKnown

/-- An accepted write keeps the invariant: it resets, starts, or changes one flag or one word of a register. -/
theorem busWrite_inv {s : State} (h : s.Inv) (hr : s.resetAsserted = false) {off : Nat} (ha : off % 4 = 0) (v : Word) :
    (s.busWrite off v).Inv := by
  obtain hw | ⟨hw, -⟩ | ⟨-, -, hw⟩ | ⟨-, -, hw⟩ | ⟨-, -, hw⟩ | ⟨-, hw⟩ | ⟨r, k, -, -, -, hb, hw⟩ :=
    busWrite_cases s off v ha <;> rw [hw]
  · exact h
  · exact inv_of_released hr h.cfgWf (fun q => by simpa using h.regLen q) h.busyNotDone h.busyNoErr h.errKnown
  · exact afterReset_inv h.cfgWf ..
  · exact inv_of_released hr h.cfgWf h.regLen h.busyNotDone h.busyNoErr h.errKnown
  · exact inv_of_released hr h.cfgWf (fun q => by simpa using h.regLen q) (by simp) (by simp) (by simp)
  · refine inv_of_released hr h.cfgWf (fun q => by simpa using h.regLen q) (fun hb => ?_) h.busyNoErr h.errKnown
    simp [h.busyNotDone hb]
  · refine inv_of_released (by simpa using hr) (by simpa using h.cfgWf) (fun q => ?_) (by simp [hb]) (by simp [hb])
      (by simpa using h.errKnown)
    rw [State.setReg_getReg, State.setReg_cfg]
    split_ifs
    · simp [h.regLen]
    · exact h.regLen q

/-- Settles O25, by what the block sees of the step. -/
theorem everyStepKeepsTheInvariant : Obligations.EveryStepKeepsTheInvariant := by
  intro s t hinv h
  have hpop := popTurn_inv hinv
  obtain ⟨-, -, hr, rfl⟩ | rfl | ⟨hr, r, rfl⟩ | ⟨hr, off, v, -, ha, -, rfl⟩ | ⟨-, held, rs, rfl⟩ := step_effect h
  · exact complete_inv hpop hr
  · exact hpop
  · exact respond_inv hpop hr r
  · exact respond_inv (busWrite_inv hpop hr ha v) (by simpa using hr) .writeOk
  · exact afterReset_inv hinv.cfgWf held s.turns.tail rs

end Sys2Proof.Machine
end

section
/-! PROOFS. The engine: its completion step, the command in flight until then, and the frame of a command. -/

namespace Sys2Proof.Machine

/-! ### The completion step -/

theorem complete_of_raise {s : State} {e : CmdError}
    (h : execute s.cfg.nwords s.cur s.opa s.opb s.opc = .raise e) : s.complete = s.endCommand e.code := by
  rw [State.complete, h, State.finish_raise]

theorem complete_of_complete {s : State} {w : Writes}
    (h : execute s.cfg.nwords s.cur s.opa s.opb s.opc = .complete w) : s.complete = (s.perform w).endCommand 0 := by
  rw [State.complete, h, State.finish_complete]

/-- With a command in flight and reset released, the engine's move is its completion (10_state.md R20, R35). -/
theorem step_completes {s : State} (he : s.engineNext = true) (hb : s.busy = true) (hr : s.resetAsserted = false) :
    step s = .next s.popTurn.complete := by
  rw [step_engine he, if_pos ⟨hb, hr⟩]

/-- A latched command word completes as its command does. -/
theorem complete_of_command {s : State} {i : Instr} (h : decodeWord s.cur = .command i) :
    exec i s = .next s.complete := by
  rw [exec_eq_finish, State.complete, execute, h]

/-- A command word decodes to its command (30_encoding.md R71). -/
theorem decodeWord_encode (i : Instr) : decodeWord (encode i) = .command i := by simp [decodeWord]

/-- The presented word is latched, with the engine to move next (log 12). -/
theorem withFetchWord_toNat (s : State) (w : Word) :
    s.withFetchWord 32 w.toNat = { s.start w with resetAsserted := false, turns := .engine :: s.turns } := by
  rw [State.withFetchWord, State.presentWord, Nat.mod_eq_of_lt w.isLt, BitVec.ofNat_toNat, BitVec.setWidth_eq]

/-- Settles O4: the step completes, and the latched word's completion is its command's. -/
theorem engineStepRunsTheDecodedCommand : Obligations.EngineStepRunsTheDecodedCommand := by
  intro s i he hb hr hi
  have hi' : decodeWord s.popTurn.cur = .command i := hi
  rw [step_completes he hb hr, complete_of_command hi']

/-- Settles O5, as the engine's step on the word `encode i`, which decodes to `i`. -/
theorem presentedWordRunsNext : Obligations.PresentedWordRunsNext := by
  intro s i
  rw [withFetchWord_toNat]
  exact engineStepRunsTheDecodedCommand _ i rfl rfl rfl (decodeWord_encode i)

/-- Settles O8: the completion step is not enabled. -/
theorem engineWithoutCommandChangesNothing : Obligations.EngineWithoutCommandChangesNothing := by
  intro s he hoff
  have hdisabled : ¬(s.busy = true ∧ s.resetAsserted = false) := by
    rintro ⟨hb, hr⟩
    simp [hb, hr] at hoff
  rw [step_engine he, if_neg hdisabled]

/-- Settles O6: the next state is the completion, whose results follow the two ends of Execute. -/
theorem completionWritesExecuteResults : Obligations.CompletionWritesExecuteResults := by
  intro s he hb hr
  refine ⟨s.popTurn.complete, step_completes he hb hr, by simp, by simp, by simp, fun e h => ?_, fun w h => ?_, ?_⟩
  · rw [complete_of_raise (s := s.popTurn) h]
    exact ⟨rfl, rfl, rfl⟩
  · rw [complete_of_complete (s := s.popTurn) h]
    exact ⟨rfl, rfl, rfl⟩
  · simp

/-! ### The command in flight -/

/-- `t` has in flight the command `s` has, on the same operands and with the results still untouched. -/
structure State.SameCommand (s t : State) : Prop where
  cfg : t.cfg = s.cfg
  reg : ∀ r, t.getReg r = s.getReg r
  busy : t.busy = s.busy
  cur : t.cur = s.cur
  held : t.resetAsserted = s.resetAsserted

theorem State.SameCommand.trans {s t u : State} (h : s.SameCommand t) (h' : t.SameCommand u) : s.SameCommand u :=
  ⟨h'.cfg.trans h.cfg, fun r => (h'.reg r).trans (h.reg r), h'.busy.trans h.busy, h'.cur.trans h.cur,
    h'.held.trans h.held⟩

theorem popTurn_sameCommand (s : State) : s.SameCommand s.popTurn := ⟨rfl, by simp, rfl, rfl, rfl⟩

theorem respond_sameCommand (s : State) (r : Response) : s.SameCommand (s.respond r) := ⟨rfl, by simp, rfl, rfl, rfl⟩

/-- A write that is no soft reset leaves the command in flight as it is (10_state.md R35, R36). -/
theorem busWrite_sameCommand {s : State} (hb : s.busy = true) {off : Nat} {v : Word} (ha : off % 4 = 0)
    (hs : ¬(off = 0 ∧ v.getLsbD 1 = true)) : s.SameCommand (s.busWrite off v) := by
  obtain hw | ⟨hw, -⟩ | ⟨h0, hv, -⟩ | ⟨-, -, hw⟩ | ⟨-, hidle, -⟩ | ⟨-, hw⟩ | ⟨_, _, -, -, -, hidle, -⟩ :=
    busWrite_cases s off v ha
  · rw [hw]; exact ⟨rfl, fun _ => rfl, rfl, rfl, rfl⟩
  · rw [hw]; exact ⟨rfl, by simp, rfl, rfl, rfl⟩
  · exact absurd ⟨h0, hv⟩ hs
  · rw [hw]; exact ⟨rfl, fun r => by cases r <;> rfl, rfl, rfl, rfl⟩
  · simp [hb] at hidle
  · rw [hw]; exact ⟨rfl, by simp, rfl, rfl, rfl⟩
  · simp [hb] at hidle

/-- The end of a command writes or keeps each register by itself. -/
theorem finish_getReg_congr {s t : State} {r : DataReg} (c : CmdResult) (h : t.getReg r = s.getReg r) :
    (t.finish c).getReg r = (s.finish c).getReg r := by
  cases c with
  | raise e => simpa using h
  | complete w => cases r <;> simp_all

/-- The same command on the same operands ends in the same way (10_state.md R35). -/
theorem State.SameCommand.execute_eq {s t : State} (h : s.SameCommand t) :
    execute t.cfg.nwords t.cur t.opa t.opb t.opc = execute s.cfg.nwords s.cur s.opa s.opb s.opc := by
  have ha : t.opa = s.opa := h.reg .opa
  have hb : t.opb = s.opb := h.reg .opb
  have hc : t.opc = s.opc := h.reg .opc
  rw [h.cfg, h.cur, ha, hb, hc]

theorem State.SameCommand.complete_err {s t : State} (h : s.SameCommand t) : t.complete.err = s.complete.err := by
  simp [h.execute_eq]

theorem State.SameCommand.complete_getReg {s t : State} (h : s.SameCommand t) (r : DataReg) :
    t.complete.getReg r = s.complete.getReg r := by
  rw [State.complete, State.complete, h.execute_eq]
  exact finish_getReg_congr _ (h.reg r)

/-- What a step can do to a command in flight: complete it, leave it, or abandon it at a reset. -/
theorem step_in_flight {s t : State} (hb : s.busy = true) (h : step s = .next t) :
    (s.engineNext = true ∧ s.resetAsserted = false ∧ t = s.popTurn.complete) ∨ s.SameCommand t ∨
    (s.resetNext ∧ ∃ held rs, t = State.afterReset s.cfg held s.turns.tail rs) := by
  have hpop := popTurn_sameCommand s
  obtain ⟨he, -, hr, ht⟩ | rfl | ⟨-, r, rfl⟩ | ⟨-, off, v, -, ha, hs, rfl⟩ | hreset := step_effect h
  · exact .inl ⟨he, hr, ht⟩
  · exact .inr (.inl hpop)
  · exact .inr (.inl (hpop.trans (respond_sameCommand _ r)))
  · exact .inr (.inl ((hpop.trans (busWrite_sameCommand (s := s.popTurn) hb ha hs)).trans (respond_sameCommand _ _)))
  · exact .inr (.inr hreset)

/-- Settles O26, by what a step can do to a command in flight. -/
theorem operandsAreStableInFlight : Obligations.OperandsAreStableInFlight := by
  intro s t hb h
  obtain ⟨-, -, rfl⟩ | hsame | ⟨hreset, held, rs, rfl⟩ := step_in_flight hb h
  · exact .inl (by simp)
  · exact .inl ⟨hsame.reg .opa, hsame.reg .opb, hsame.reg .opc, hsame.cur⟩
  · exact .inr (by simp [hreset])

/-- A write that is no soft reset changes no result register (10_state.md R22, R37). -/
theorem busWrite_getReg_result (s : State) {r : DataReg} (hr : r.isOperand = false) {off : Nat} {v : Word}
    (ha : off % 4 = 0) (hs : ¬(off = 0 ∧ v.getLsbD 1 = true)) : (s.busWrite off v).getReg r = s.getReg r := by
  obtain hw | ⟨hw, -⟩ | ⟨h0, hv, -⟩ | ⟨-, -, hw⟩ | ⟨-, -, hw⟩ | ⟨-, hw⟩ | ⟨q, k, -, -, hq, -, hw⟩ :=
    busWrite_cases s off v ha
  · rw [hw]
  · rw [hw, State.noteDropped_getReg]
  · exact absurd ⟨h0, hv⟩ hs
  · rw [hw]; cases r <;> rfl
  · rw [hw, State.start_getReg]
  · rw [hw, State.clearStatus_getReg]
  · rw [hw, State.setReg_getReg_other]
    rintro rfl
    simp [hr] at hq

/-- Settles O27: of the moves the block sees, only a completion without error and a reset reach the results. -/
theorem resultsChangeOnlyAtCompletionOrReset : Obligations.ResultsChangeOnlyAtCompletionOrReset := by
  intro s t h
  obtain ⟨he, hb, -, rfl⟩ | rfl | ⟨-, r, rfl⟩ | ⟨-, off, v, -, ha, hs, rfl⟩ | ⟨hreset, held, rs, rfl⟩ := step_effect h
  · cases hx : execute s.popTurn.cfg.nwords s.popTurn.cur s.popTurn.opa s.popTurn.opb s.popTurn.opc with
    | raise e =>
      rw [complete_of_raise hx]
      exact .inl ⟨rfl, rfl, rfl⟩
    | complete w =>
      rw [complete_of_complete hx]
      exact .inr (.inl ⟨hb, he, rfl, rfl, rfl, w, hx, rfl, rfl, rfl⟩)
  · exact .inl ⟨rfl, rfl, rfl⟩
  · exact .inl ⟨rfl, rfl, rfl⟩
  · have hres (r : DataReg) (hr : r.isOperand = false) := busWrite_getReg_result s.popTurn hr (v := v) ha hs
    exact .inl ⟨hres .res0 rfl, hres .res1 rfl, hres .res2 rfl⟩
  · exact .inr (.inr ⟨hreset, rfl, rfl, State.afterReset_getReg _ _ _ _⟩)

/-! ### A command in flight completes -/

/-- A move that cancels nothing is no reset. -/
theorem not_resetNext_of_keepsCommand {s : State} {u : Turn} (hr : s.resetAsserted = false)
    (hu : s.turns.head? = some u) (hkeep : Turn.keepsCommand s.cfg u = true) : ¬s.resetNext := by
  rintro (hpin | ⟨hheld, -⟩ | ⟨v, ⟨-, hacc⟩, -, hv⟩)
  · rw [hpin] at hu
    cases hu
    simp [Turn.keepsCommand] at hkeep
  · simp [hr] at hheld
  · rw [hacc] at hu
    cases hu
    simp only [Turn.keepsCommand, accepted, Nat.add_zero, Nat.sub_self, hv] at hkeep
    simp at hkeep

/-- An access that cancels nothing is answered, and the command stays in flight. -/
theorem step_keeps_command {s : State} {a : Access} (hb : s.busy = true) (hr : s.resetAsserted = false)
    (ha : s.turns.head? = some (.access a)) (hkeep : Turn.keepsCommand s.cfg (.access a) = true) :
    ∃ t, step s = .next t ∧ s.SameCommand t := by
  have hdec : Config.decodes s.cfg a.addr = true := by
    rw [Turn.keepsCommand, Bool.and_eq_true] at hkeep
    exact hkeep.1
  have hstep := step_access (accessNext_of_head ha hdec) hr
  refine ⟨_, hstep, ?_⟩
  obtain ⟨he, -, -⟩ | hsame | ⟨hreset, -⟩ := step_in_flight hb hstep
  · obtain ⟨rest, hcons⟩ := List.head?_eq_some_iff.1 ha
    simp [State.engineNext, hcons] at he
  · exact hsame
  · exact absurd hreset (not_resetNext_of_keepsCommand hr ha hkeep)

/-- Where the engine moves next, one step completes. -/
theorem run_one_completes {s : State} (he : s.engineNext = true) (hb : s.busy = true) (hr : s.resetAsserted = false) :
    Host.Core.run Sys2Proof.core 1 s = .next s.popTurn.complete := run_succ 0 (step_completes he hb hr)

/-- Moves that cancel nothing lead to the completion of the command in flight, the engine's own included. -/
theorem run_completes (ts : List Turn) {s : State} (hts : s.turns = ts) (hb : s.busy = true)
    (hr : s.resetAsserted = false) (hkeep : ∀ u ∈ ts, Turn.keepsCommand s.cfg u = true) :
    ∃ k u, k ≤ ts.length + 1 ∧ Host.Core.run Sys2Proof.core k s = .next u.complete ∧ s.SameCommand u := by
  induction ts generalizing s with
  | nil => exact ⟨1, _, by simp, run_one_completes (by simp [State.engineNext, hts]) hb hr, popTurn_sameCommand s⟩
  | cons u ts ih =>
    cases u with
    | engine => exact ⟨1, _, by simp, run_one_completes (by simp [State.engineNext, hts]) hb hr, popTurn_sameCommand s⟩
    | resetPin level => simp [Turn.keepsCommand] at hkeep
    | access a =>
      obtain ⟨t, hstep, hsame⟩ := step_keeps_command (a := a) hb hr (by simp [hts]) (hkeep _ (by simp))
      have htail : t.turns = ts := by rw [(parametersAndResponsesAreKept s t hstep).2.1, hts, List.tail_cons]
      obtain ⟨k, u, hk, hrun, hu⟩ := ih htail (hsame.busy.trans hb) (hsame.held.trans hr)
        (fun u hu => by rw [hsame.cfg]; exact hkeep u (by simp [hu]))
      exact ⟨k + 1, u, by simpa using hk, by rw [run_succ k hstep, hrun], hsame.trans hu⟩

/-- Settles O30: the state that completes still has the command and the operands of the start. -/
theorem commandInFlightCompletes : Obligations.CommandInFlightCompletes := by
  intro s hb hr hkeep
  obtain ⟨k, u, hk, hrun, hsame⟩ := run_completes s.turns rfl hb hr hkeep
  refine ⟨k, u.complete, hk, hrun, complete_busy u, complete_done u, hsame.complete_err, hsame.complete_getReg .res0,
    hsame.complete_getReg .res1, hsame.complete_getReg .res2, ?_, ?_, ?_⟩
  · rw [complete_opa]; exact hsame.reg .opa
  · rw [complete_opb]; exact hsame.reg .opb
  · rw [complete_opc]; exact hsame.reg .opc

/-! ### The frame of a command -/

/-- Only EGCD writes RES1 and RES2 (10_state.md R38). -/
theorem commandResult_res12 {n : Nat} {i : Instr} (hi : i ≠ .egcd) {A B C : List Word} {w : Writes}
    (h : commandResult n i A B C = .complete w) : w.res1 = none ∧ w.res2 = none := by
  cases i with
  | egcd => exact absurd rfl hi
  | modinv | modexp | encstep | decstep =>
    simp only [commandResult, modinvCommand, modexpCommand, encstepCommand, decstepCommand, completeRes0] at h
    split_ifs at h
    cases h
    exact ⟨rfl, rfl⟩

/-- An offset that names a word of a register lies in that register's window (20_memory.md R55). -/
theorem windowOf_of_targetOf_word {n off : Nat} {r : DataReg} {k : Nat} (h : targetOf n off = .word r k) :
    windowOf off = some r := by
  rw [targetOf] at h
  split at h
  · rw [controlTarget] at h
    (repeat' split at h) <;> simp at h
  · next q hq =>
    split at h
    · cases h
      exact hq
    · simp at h

/-- A read depends on the parameters, on IE, on STATUS at offset 8 and on the register whose window it is in. -/
theorem busRead_congr {s t : State} {off : Nat} (hcfg : t.cfg = s.cfg) (hie : t.ie = s.ie) (hoff : off ≠ 8)
    (hreg : ∀ r, windowOf off = some r → t.getReg r = s.getReg r) : t.busRead off = s.busRead off := by
  rw [State.busRead, State.busRead, hcfg]
  cases htgt : targetOf s.cfg.nwords off with
  | ctrl => simp only [hie]
  | cmd => rfl
  | status => exact absurd (targetOf_eq_status.1 htgt) hoff
  | param => rfl
  | unmapped => rfl
  | word r k => simp only [hreg r (windowOf_of_targetOf_word htgt)]

/-- A byte of the window reads as before a command outside STATUS and the registers the command's end writes. -/
theorem finish_windowByte {s : State} {c : CmdResult} {off : Nat} (hoff : off / 4 ≠ 2)
    (hreg : ∀ r, windowOf (off - off % 4) = some r → (s.finish c).getReg r = s.getReg r) :
    (s.finish c).windowByte off = s.windowByte off := by
  rw [State.windowByte, State.windowByte, busRead_congr (by simp) (by simp) (by omega) hreg]

/-- A completion with an error code is an error's, and writes no register (10_state.md R38). -/
theorem finish_getReg_of_code_ne_zero {s : State} {c : CmdResult} (h : c.code ≠ 0) (r : DataReg) :
    (s.finish c).getReg r = s.getReg r := by
  cases c with
  | raise e => simp
  | complete w => exact absurd rfl h

/-- A command other than EGCD leaves RES1 and RES2. -/
theorem finish_getReg_res12 {s : State} {n : Nat} {i : Instr} (hi : i ≠ .egcd) {A B C : List Word} {r : DataReg}
    (hr : r = .res1 ∨ r = .res2) : (s.finish (commandResult n i A B C)).getReg r = s.getReg r := by
  cases hc : commandResult n i A B C with
  | raise e => simp
  | complete w =>
    obtain ⟨h1, h2⟩ := commandResult_res12 hi hc
    obtain rfl | rfl := hr
    · simp [h1]
    · simp [h2]

/-- Below RES0's window and above RES2's there are only operand registers (20_memory.md R55). -/
theorem isOperand_of_windowOf {off : Nat} {r : DataReg} (h : windowOf off = some r)
    (hoff : off < 0x1000 ∨ 0x1C00 ≤ off) : r.isOperand = true := by
  rw [windowOf_eq_some] at h
  cases r with
  | opa | opb | opc => rfl
  | res0 | res1 | res2 =>
    simp only [DataReg.base] at h
    omega

/-- From RES1's window on there are only RES1 and RES2 (20_memory.md R55). -/
theorem res12_of_windowOf {off : Nat} {r : DataReg} (h : windowOf off = some r) (hoff : 0x1400 ≤ off) :
    r = .res1 ∨ r = .res2 := by
  rw [windowOf_eq_some] at h
  cases r with
  | res1 | res2 => simp
  | opa | opb | opc | res0 =>
    simp only [DataReg.base] at h
    omega

/-- Settles O46: a command is one `finish`, so only STATUS and the registers of its writes can read otherwise. -/
theorem commandFrame : Obligations.CommandFrame := by
  intro i s t h
  rw [exec_eq_finish] at h
  cases h
  have herr (he : (s.finish (commandResult s.cfg.nwords i s.opa s.opb s.opc)).err ≠ 0) (r : DataReg) :=
    finish_getReg_of_code_ne_zero (s := s) (State.finish_err s _ ▸ he) r
  refine ⟨by simp, by simp, by simp, by simp, by simp, by simp, by simp, by simp, by simp, by simp, fun hi => ?_,
    fun he => ⟨herr he .res0, herr he .res1, herr he .res2⟩, fun off hoff hwin => ?_, fun hi off hlo => ?_,
    fun he off hoff => finish_windowByte hoff fun r _ => herr he r⟩
  · exact ⟨finish_getReg_res12 hi (.inl rfl), finish_getReg_res12 hi (.inr rfl)⟩
  · exact finish_windowByte hoff fun r hr => s.finish_getReg_operand _ r (isOperand_of_windowOf hr (by omega))
  · exact finish_windowByte (by omega) fun r hr => finish_getReg_res12 hi (res12_of_windowOf hr (by omega))

end Sys2Proof.Machine
end

section
/-! PROOFS. The register window: what each aligned access reads and does, and the registers behind it. -/

namespace Sys2Proof.Machine

/-! ### What an accepted access does, by what its offset names -/

/-- A write to a word of an operand register of an idle block (10_state.md R22). -/
theorem busWrite_operand_idle {s : State} {r : DataReg} {k : Nat} (hn : s.cfg.nwords ≤ 256) (hk : k < s.cfg.nwords)
    (ho : r.isOperand = true) (hb : s.busy = false) (v : Word) :
    s.busWrite (r.base + 4 * k) v = s.setReg r (putWord (s.getReg r) k v) := by
  rw [busWrite_word s r v hn hk]
  simp [State.writeWord, ho, hb]

/-- A write to a word of an operand register of a busy block (10_state.md R36). -/
theorem busWrite_operand_busy {s : State} {r : DataReg} {k : Nat} (hn : s.cfg.nwords ≤ 256) (hk : k < s.cfg.nwords)
    (ho : r.isOperand = true) (hb : s.busy = true) (v : Word) : s.busWrite (r.base + 4 * k) v = s.noteDropped := by
  rw [busWrite_word s r v hn hk]
  simp [State.writeWord, ho, hb]

/-- A write to a word of a result register (10_state.md R23, R36). -/
theorem busWrite_result {s : State} {r : DataReg} {k : Nat} (hn : s.cfg.nwords ≤ 256) (hk : k < s.cfg.nwords)
    (ho : r.isOperand = false) (v : Word) : s.busWrite (r.base + 4 * k) v = s := by
  rw [busWrite_word s r v hn hk]
  simp [State.writeWord, ho]

/-- A write to an offset that names nothing (20_memory.md R56). -/
theorem busWrite_unmapped {s : State} {off : Nat} (h : targetOf s.cfg.nwords off = .unmapped) (v : Word) :
    s.busWrite off v = s := by
  rw [State.busWrite, h]

/-- A read of an offset that names nothing (20_memory.md R56). -/
theorem busRead_unmapped {s : State} {off : Nat} (h : targetOf s.cfg.nwords off = .unmapped) :
    s.busRead off = 0 := by
  rw [State.busRead, h]

/-- A word at or beyond NWORDS of a register's window names nothing (20_memory.md R56). -/
theorem targetOf_beyond {n : Nat} (r : DataReg) {k : Nat} (hn : n ≤ k) (hk : k < 256) :
    targetOf n (r.base + 4 * k) = .unmapped := by
  rw [targetOf_base n r hk, if_neg (by omega)]

@[simp] theorem writeCmd_idle {s : State} (hb : s.busy = false) (v : Word) : s.writeCmd v = s.start v := by
  simp [State.writeCmd, hb]

@[simp] theorem writeCmd_busy {s : State} (hb : s.busy = true) (v : Word) : s.writeCmd v = s.noteDropped := by
  simp [State.writeCmd, hb]

@[simp] theorem writeCtrl_ie (s : State) {v : Word} (hv : v.getLsbD 1 = false) :
    s.writeCtrl v = { s with ie := v.getLsbD 0 } := by
  rw [State.writeCtrl, if_neg (ne_true_of_eq_false hv)]

/-! ### CMD, CTRL, STATUS, PARAM -/

/-- Settles O10: the write of CMD starts. -/
theorem startLatchesAnyWord : Obligations.StartLatchesAnyWord := by
  intro s v hacc hr hb
  have hb' : s.popTurn.busy = false := hb
  refine ⟨_, step_write hacc rfl hr, ?_, ?_⟩
  · rw [busWrite_cmd, writeCmd_idle hb']
    rfl
  · rw [busWrite_cmd, writeCmd_idle hb']
    simp [State.irq]

/-- A step in which a write of CTRL sets IE. -/
theorem step_write_ie {s : State} {v : Word} (hacc : s.accessNext (.write v) 32 0x0000) (hr : s.resetAsserted = false)
    (hv : v.getLsbD 1 = false) :
    step s = .next { s.popTurn with ie := v.getLsbD 0, responses := .writeOk :: s.responses } := by
  rw [step_write hacc rfl hr, busWrite_ctrl, writeCtrl_ie _ hv]
  rfl

/-- A step in which a write of CTRL resets the block (70_reset_and_hazards.md R191). -/
theorem step_write_srst {s : State} {v : Word} (hacc : s.accessNext (.write v) 32 0x0000)
    (hr : s.resetAsserted = false) (hv : v.getLsbD 1 = true) :
    step s = .next (State.afterReset s.cfg s.resetAsserted s.turns.tail (.writeOk :: s.responses)) := by
  rw [step_write hacc rfl hr, busWrite_ctrl, writeCtrl_srst _ hv, resetBlock_eq_afterReset]
  rfl

/-- A step in which a write of STATUS clears DONE and WBUSY. -/
theorem step_write_status {s : State} {v : Word} (hacc : s.accessNext (.write v) 32 0x0008)
    (hr : s.resetAsserted = false) :
    step s = .next { s.popTurn with
      done := s.done && !v.getLsbD 1, wbusy := s.wbusy && !v.getLsbD 2, responses := .writeOk :: s.responses } := by
  rw [step_write hacc rfl hr, busWrite_status]
  rfl

/-- The fields of CTRL as read (10_state.md R26). -/
theorem ctrlWord_fields (ie : Bool) : (ctrlWord ie).getLsbD 0 = ie ∧ (ctrlWord ie).getLsbD 1 = false ∧
    (ctrlWord ie).extractLsb' 2 30 = 0#30 := by
  cases ie <;> decide

/-- The fields of STATUS as read (10_state.md R28). -/
theorem statusWord_fields (busy done wbusy : Bool) (err : BitVec 4) :
    (statusWord busy done wbusy err).getLsbD 0 = busy ∧ (statusWord busy done wbusy err).getLsbD 1 = done ∧
      (statusWord busy done wbusy err).getLsbD 2 = wbusy ∧ (statusWord busy done wbusy err).getLsbD 3 = false ∧
      (statusWord busy done wbusy err).extractLsb' 4 4 = err ∧
      (statusWord busy done wbusy err).extractLsb' 8 24 = 0#24 := by
  revert err
  cases busy <;> cases done <;> cases wbusy <;> decide

/-- Settles O14: the fields as read, and the two kinds of write. -/
theorem controlRegister : Obligations.ControlRegister := by
  intro s
  refine ⟨ctrlWord_fields s.ie, fun v hacc hr => ⟨fun hv => ?_, step_write_ie hacc hr⟩⟩
  exact ⟨_, step_write_srst hacc hr hv, by simp⟩

/-- Settles O15: the fields as read, the write, and the invariant's part on BUSY and DONE. -/
theorem statusRegister : Obligations.StatusRegister := by
  intro s
  refine ⟨statusWord_fields s.busy s.done s.wbusy s.err, fun v hacc hr => step_write_status hacc hr, ?_⟩
  rintro hinv ⟨hb, hd⟩
  simp [hinv.busyNotDone hb] at hd

/-- Settles O16: NWORDS is at most 256, so 16 bits hold it. -/
theorem paramRegister : Obligations.ParamRegister := by
  intro s hwf
  obtain ⟨-, h256, -⟩ := nwords_of_wf hwf
  refine ⟨?_, ?_, fun v => rfl, rfl⟩
  · rw [busRead_param, BitVec.extractLsb'_toNat, paramWord_toNat (by omega), Config.width]
    omega
  · apply BitVec.eq_of_toNat_eq
    rw [busRead_param, BitVec.extractLsb'_toNat, paramWord_toNat (by omega), Nat.shiftRight_eq_div_pow]
    simp
    omega

/-- Settles O17: irq is IE and DONE, and each event sets, keeps or clears one of them. -/
theorem interruptIsALevel : Obligations.InterruptIsALevel := by
  intro s
  refine ⟨by simp [State.irq], by simp [State.irq], fun v hv => ?_, fun v hv => ?_, fun v hv => ?_, fun v hb => ?_,
    fun v hb => ?_, by simp [State.irq]⟩
  · rw [busWrite_ctrl, writeCtrl_ie s hv, State.irq]
  · rw [busWrite_status, State.irq, State.clearStatus_done, hv, Bool.not_true, Bool.and_false, Bool.and_false]
  · rw [busWrite_status, State.irq, State.clearStatus_done, hv, Bool.not_false, Bool.and_true]
    rfl
  · simp [State.irq, hb]
  · simp [State.irq, hb]

/-! ### The operand words -/

/-- Settles O18: the write sets one register, to its old words but one. -/
theorem operandWriteChangesOneWord : Obligations.OperandWriteChangesOneWord := by
  intro s r k v hs hk ho hacc hr hb
  obtain ⟨-, h256, -⟩ := nwords_of_wf hs.cfgWf
  have hw := busWrite_operand_idle (s := s.popTurn) h256 hk ho hb v
  refine ⟨_, step_write hacc (r.base_add_mod k) hr, ?_⟩
  rw [hw, State.popTurn_getReg]
  refine ⟨?_, fun j hj => ?_, by simp, fun q hq => ?_, by simp⟩
  · rw [State.respond_getReg, State.setReg_getReg_same, wordAt_putWord_same v (by rwa [hs.regLen])]
  · rw [State.respond_getReg, State.setReg_getReg_same, wordAt_putWord_other _ v hj]
  · rw [State.respond_getReg, State.setReg_getReg_other _ _ _ _ hq, State.popTurn_getReg]

/-- Settles O11, offset by offset. -/
theorem writesWhileBusyAreDropped : Obligations.WritesWhileBusyAreDropped := by
  intro s off v hwf hacc hr
  obtain ⟨-, h256, -⟩ := nwords_of_wf hwf
  refine ⟨fun hb => ?_, fun _ hoff => ?_, fun _ hoff => ?_, ?_⟩
  · have hb' : s.popTurn.busy = true := hb
    rintro (rfl | ⟨r, k, ho, hk, rfl⟩)
    · rw [step_write hacc rfl hr, busWrite_cmd, writeCmd_busy hb']
      rfl
    · rw [step_write hacc (r.base_add_mod k) hr, busWrite_operand_busy (s := s.popTurn) h256 hk ho hb]
      rfl
  · subst hoff
    split_ifs with hv
    · exact step_write_srst hacc hr hv
    · exact step_write_ie hacc hr (by simpa using hv)
  · subst hoff
    exact step_write_status hacc hr
  · rintro (rfl | ⟨r, k, ho, hk, rfl⟩ | ⟨r, k, hn, hk, rfl⟩)
    · rw [step_write hacc rfl hr, busWrite_param]
      rfl
    · rw [step_write hacc (r.base_add_mod k) hr, busWrite_result (s := s.popTurn) h256 hk ho]
      rfl
    · rw [step_write hacc (r.base_add_mod k) hr, busWrite_unmapped (s := s.popTurn) (targetOf_beyond r hn hk)]
      rfl

/-! ### The whole table -/

/-- The reads of the table of 10_state.md R39. -/
theorem busRead_table {s : State} (hwf : s.cfg.wf = true) {off : Nat} (ha : off % 4 = 0) :
    (off = 0x0000 → (s.busRead off).toNat = s.ie.toNat) ∧
    (off = 0x0004 → s.busRead off = 0) ∧
    (off = 0x0008 →
      (s.busRead off).toNat = s.busy.toNat + 2 * s.done.toNat + 4 * s.wbusy.toNat + 16 * s.err.toNat) ∧
    (off = 0x000C → (s.busRead off).toNat = s.cfg.nwords) ∧
    (∀ (r : DataReg) (k : Nat), k < s.cfg.nwords → off = r.base + 4 * k → s.busRead off = wordAt (s.getReg r) k) ∧
    (Unmapped s.cfg.nwords off → s.busRead off = 0) := by
  obtain ⟨-, h256, -⟩ := nwords_of_wf hwf
  refine ⟨?_, ?_, ?_, ?_, ?_, fun hu => busRead_unmapped (targetOf_unmapped ha hu)⟩
  · rintro rfl
    exact ctrlWord_toNat s.ie
  · rintro rfl
    rfl
  · rintro rfl
    exact statusWord_toNat ..
  · rintro rfl
    exact paramWord_toNat (by omega)
  · rintro r k hk rfl
    exact busRead_word s r h256 hk

/-- The writes of the table of 10_state.md R39. -/
theorem busWrite_table {s : State} (hwf : s.cfg.wf = true) {off : Nat} (ha : off % 4 = 0) (v : Word) :
    (off = 0x0000 → v.getLsbD 1 = true → s.busWrite off v = s.resetBlock) ∧
    (off = 0x0000 → v.getLsbD 1 = false → s.busWrite off v = { s with ie := v.getLsbD 0 }) ∧
    (off = 0x0004 → s.busy = false → s.busWrite off v = s.start v) ∧
    (off = 0x0004 → s.busy = true → s.busWrite off v = s.noteDropped) ∧
    (off = 0x0008 → s.busWrite off v = s.clearStatus v) ∧
    (off = 0x000C → s.busWrite off v = s) ∧
    (∀ (r : DataReg) (k : Nat), k < s.cfg.nwords → off = r.base + 4 * k →
      (r.isOperand = true → s.busy = false → s.busWrite off v = s.setReg r (putWord (s.getReg r) k v)) ∧
      (r.isOperand = true → s.busy = true → s.busWrite off v = s.noteDropped) ∧
      (r.isOperand = false → s.busWrite off v = s)) ∧
    (Unmapped s.cfg.nwords off → s.busWrite off v = s) := by
  obtain ⟨-, h256, -⟩ := nwords_of_wf hwf
  refine ⟨?_, ?_, ?_, ?_, ?_, ?_, ?_, fun hu => busWrite_unmapped (targetOf_unmapped ha hu) v⟩
  · rintro rfl hv
    exact writeCtrl_srst s hv
  · rintro rfl hv
    exact writeCtrl_ie s hv
  · rintro rfl hb
    exact writeCmd_idle hb v
  · rintro rfl hb
    exact writeCmd_busy hb v
  · rintro rfl
    rfl
  · rintro rfl
    rfl
  · rintro r k hk rfl
    exact ⟨fun ho hb => busWrite_operand_idle h256 hk ho hb v, fun ho hb => busWrite_operand_busy h256 hk ho hb v,
      fun ho => busWrite_result h256 hk ho v⟩

/-- Settles O12, by the tables of the reads and of the writes. -/
theorem hostAccessTable : Obligations.HostAccessTable := by
  intro s off hwf hr ha
  refine ⟨fun hacc => ⟨_, step_read hacc ha hr, busRead_table (s := s.popTurn) hwf ha⟩, fun v hacc =>
    ⟨s.popTurn.busWrite off v, ?_, busWrite_table (s := s.popTurn) hwf ha v⟩⟩
  rw [step_write hacc ha hr, State.respond, busWrite_responses, State.popTurn_responses]

/-! ### Reset -/

/-- The level that asserts reset (70_reset_and_hazards.md R190). -/
theorem driveReset_assert (s : State) :
    s.driveReset s.cfg.resetActiveHigh = State.afterReset s.cfg true s.turns s.responses := by
  rw [State.driveReset, if_pos rfl]
  rfl

/-- The level that releases reset, while it is asserted (70_reset_and_hazards.md R190). -/
theorem driveReset_release {s : State} (hheld : s.resetAsserted = true) :
    s.driveReset (!s.cfg.resetActiveHigh) = State.afterReset s.cfg false s.turns s.responses := by
  rw [State.driveReset, if_neg (Bool.not_ne_self _), if_pos hheld]
  rfl

/-- Settles O21: each of them is `afterReset`, whose fields are the table's. -/
theorem resetLeavesTheTableValues : Obligations.ResetLeavesTheTableValues := by
  unfold Obligations.ResetLeavesTheTableValues
  intro table
  have htable (c : Config) (held : Bool) (ts : List Turn) (rs : List Response) :
      table c (State.afterReset c held ts rs) :=
    ⟨fun r => ⟨State.afterReset_getReg .., by simp⟩, by simp [State.irq]⟩
  refine ⟨fun s v hacc hr hv => ⟨_, step_write_srst hacc hr hv, htable ..⟩, fun s hpin => ?_, fun s hheld hpin => ?_,
    htable Config.reference false [] []⟩
  · refine ⟨_, step_resetPin hpin, ?_⟩
    rw [← State.popTurn_cfg s, driveReset_assert]
    exact htable ..
  · refine ⟨_, step_resetPin hpin, ?_⟩
    rw [← State.popTurn_cfg s, driveReset_release (s := s.popTurn) hheld]
    exact htable ..

end Sys2Proof.Machine
end

section
/-! PROOFS. The host's accesses to the window: where the model stops, what errored accesses and byte lanes answer, the
words of a register, and what an idle block and a completion that races with a write keep. -/

namespace Sys2Proof.Machine

/-! ### Where the model stops -/

/-- The block does not decode an access outside the window (20_memory.md R50, log 6). -/
theorem access_outside {s : State} {a : Access} (hd : Config.decodes s.cfg a.addr = false) :
    s.access a = .fault .outsideWindow := by
  rw [State.access, if_neg (ne_true_of_eq_false hd)]

/-- An access to the window while reset is asserted is refused (70_reset_and_hazards.md R190). -/
theorem access_during_reset {s : State} {a : Access} (hd : Config.decodes s.cfg a.addr = true)
    (hr : s.resetAsserted = true) : s.access a = .refused .accessDuringReset := by
  rw [State.access, if_pos hd, if_pos hr]

/-- A step whose next move is a listed access, inside the window or not. -/
theorem step_access_turn {s : State} {a : Access} (h : s.turns.head? = some (.access a)) :
    step s = s.popTurn.access a := by
  obtain ⟨rest, hcons⟩ := List.head?_eq_some_iff.1 h
  rw [step_of_cons hcons, State.takeTurn]

/-- A step whose next move is no access, or one to the window with reset released, answers a next state. -/
theorem step_answers {s : State} (h : ∀ a, s.turns.head? = some (.access a) →
    Config.decodes s.cfg a.addr = true ∧ s.resetAsserted = false) : ∃ t, step s = .next t := by
  cases hts : s.turns with
  | nil => exact ⟨_, step_engine (by simp [State.engineNext, hts])⟩
  | cons u rest =>
    have hhead : s.turns.head? = some u := by rw [hts, List.head?_cons]
    cases u with
    | engine => exact ⟨_, step_engine (by simp [State.engineNext, hts])⟩
    | resetPin level => exact ⟨_, step_resetPin hhead⟩
    | access a =>
      obtain ⟨hd, hr⟩ := h a hhead
      exact ⟨_, step_access (accessNext_of_head hhead hd) hr⟩

/-- Settles O9: of all moves only an access can stop the step, and `access_next` says when it does not. -/
theorem stepStopsOnlyOnForbiddenAccess : Obligations.StepStopsOnlyOnForbiddenAccess := by
  intro s
  refine ⟨⟨?_, step_answers⟩, fun a ha => ?_⟩
  · rintro ⟨t, ht⟩ a ha
    rw [step_access_turn ha] at ht
    obtain ⟨hd, hr, -⟩ := access_next ht
    exact ⟨hd, hr⟩
  · rw [step_access_turn ha]
    exact ⟨access_outside (s := s.popTurn), access_during_reset (s := s.popTurn)⟩

/-! ### Errored accesses and byte lanes -/

/-- Settles O13: such an access is not an accepted one, so only the response is added. -/
theorem otherAccessesGetABusError : Obligations.OtherAccessesGetABusError := by
  intro s width off hbad hr
  refine ⟨fun hacc => ?_, fun v hacc => ?_⟩ <;> rw [step_access hacc hr, portAccess_error _ _ hbad] <;> rfl

/-- Byte lane `k` of a word as a number (20_memory.md R53). -/
theorem laneOf_toNat (w : Word) (k : Nat) : (laneOf w k).toNat = w.toNat / 2 ^ (8 * k) % 2 ^ 8 := by
  rw [laneOf, BitVec.extractLsb'_toNat, Nat.shiftRight_eq_div_pow]

/-- The byte at offset 4j + k is lane k of the word at 4j (20_memory.md R53). -/
theorem windowByte_eq_laneOf (s : State) (j : Nat) {k : Nat} (hk : k < 4) :
    s.windowByte (4 * j + k) = laneOf (s.busRead (4 * j)) k := by
  have hlane : (4 * j + k) % 4 = k := by omega
  rw [State.windowByte, hlane, Nat.add_sub_cancel]

/-- Settles O20: the byte is a lane, and a lane is a digit of the word in base 2^8. -/
theorem byteLanesAreLittleEndian : Obligations.ByteLanesAreLittleEndian := by
  intro s j k hk
  rw [windowByte_eq_laneOf s j hk, laneOf_toNat]

/-! ### The words of a register -/

/-- A register of a `Sized` state fits its window (00_scope.md R6, 20_memory.md R55). -/
theorem State.Sized.nwords_le {s : State} (hs : s.Sized) : s.cfg.nwords ≤ 256 := by
  obtain ⟨-, h256, -⟩ := nwords_of_wf hs.cfgWf
  exact h256

@[simp] theorem writeWord_cfg (s : State) (r : DataReg) (k : Nat) (v : Word) : (s.writeWord r k v).cfg = s.cfg := by
  rw [State.writeWord]
  split_ifs <;> simp

/-- The second write of one register is the one that stays. -/
@[simp] theorem State.setReg_setReg (s : State) (r : DataReg) (xs ys : List Word) :
    (s.setReg r xs).setReg r ys = s.setReg r ys := by
  cases r <;> rfl

/-- Two writes to different words of a register may be made in either order (20_memory.md R54). -/
theorem writeWord_comm (s : State) (r : DataReg) {j k : Nat} (v w : Word) (h : j ≠ k) :
    (s.writeWord r j v).writeWord r k w = (s.writeWord r k w).writeWord r j v := by
  cases ho : r.isOperand with
  | false => simp [State.writeWord, ho]
  | true =>
    cases hb : s.busy with
    | true => simp [State.writeWord, ho, hb]
    | false => simp [State.writeWord, ho, hb, putWord_comm _ v w h]

/-- A write to one word of a register leaves its other words (10_state.md R22, 20_memory.md R54). -/
theorem wordAt_writeWord_other (s : State) (r : DataReg) {j k : Nat} (v : Word) (h : j ≠ k) :
    wordAt ((s.writeWord r k v).getReg r) j = wordAt (s.getReg r) j := by
  rw [State.writeWord]
  split_ifs
  · rw [State.noteDropped_getReg]
  · rw [State.setReg_getReg_same, wordAt_putWord_other _ v h]
  · rfl

/-- `RDW` answers the register's value (30_encoding.md R79). -/
theorem readReg_eq {s : State} (hs : s.Sized) (r : DataReg) : s.readReg r = uint (s.getReg r) := by
  rw [State.readReg, readWords_all s hs]

/-- Settles O19, clause by clause: a word is a digit of the value in base 2^32, and a write touches one word. -/
theorem registerWordsAreLittleEndian : Obligations.RegisterWordsAreLittleEndian := by
  refine ⟨fun s r k hs hk => ?_, fun s r hs => readReg_eq hs r, fun s r v hs ho hb hv => ?_,
    fun s r j k v w hs hj hk hjk => ?_, fun s r j k v hs hj hk hjk => ?_⟩
  · rw [busRead_word s r hs.nwords_le hk, wordAt_toNat]
  · rw [writeReg_eq s hs r ho hb]
    refine ⟨?_, fun q hq => State.setReg_getReg_other s r q _ hq⟩
    rw [State.setReg_getReg_same, uint_toWords_of_lt hv]
  · have hn := hs.nwords_le
    rw [busWrite_word s r v hn hj, busWrite_word s r w hn hk, busWrite_word _ r w (by simpa) (by simpa),
      busWrite_word _ r v (by simpa) (by simpa), writeWord_comm s r v w hjk]
  · have hn := hs.nwords_le
    rw [busWrite_word s r v hn hk, busRead_word s r hn hj, busRead_word _ r (by simpa) (by simpa),
      wordAt_writeWord_other s r v hjk]

/-! ### An idle block -/

/-- An accepted write to an idle block that is no soft reset starts a command, or leaves BUSY and ERR. -/
theorem busWrite_idle_cases {s : State} (hb : s.busy = false) {off : Nat} {v : Word} (ha : off % 4 = 0)
    (hs : ¬(off = 0 ∧ v.getLsbD 1 = true)) :
    (off = 4 ∧ s.busWrite off v = s.start v) ∨
    ((s.busWrite off v).busy = false ∧ (s.busWrite off v).err = s.err) := by
  obtain hw | ⟨-, hbusy⟩ | ⟨h0, hv, -⟩ | ⟨-, -, hw⟩ | ⟨h4, -, hw⟩ | ⟨-, hw⟩ | ⟨_, _, -, -, -, -, hw⟩ :=
    busWrite_cases s off v ha
  · exact .inr (by simp [hw, hb])
  · simp [hb] at hbusy
  · exact absurd ⟨h0, hv⟩ hs
  · exact .inr (by simp [hw, hb])
  · exact .inl ⟨h4, hw⟩
  · exact .inr (by simp [hw, hb])
  · exact .inr (by simp [hw, hb])

/-- Settles O28, by what the block sees of the step: no completion while idle, and only a start or a reset reaches BUSY,
ERR or a result register. -/
theorem resultsAndErrorStayWhileIdle : Obligations.ResultsAndErrorStayWhileIdle := by
  intro s t hb h
  obtain ⟨-, hbusy, -, -⟩ | rfl | ⟨-, r, rfl⟩ | ⟨hr, off, v, hacc, ha, hs, rfl⟩ | ⟨hreset, held, rs, rfl⟩ :=
    step_effect h
  · simp [hb] at hbusy
  · exact .inl ⟨hb, rfl, rfl, rfl, rfl⟩
  · exact .inl ⟨hb, rfl, rfl, rfl, rfl⟩
  · obtain ⟨rfl, hw⟩ | ⟨hidle, herr⟩ := busWrite_idle_cases (s := s.popTurn) hb ha hs
    · rw [hw]
      exact .inr (.inl ⟨⟨v, hacc, hr, rfl⟩, rfl, rfl, rfl, rfl, rfl, rfl⟩)
    · have hres (r : DataReg) (hr : r.isOperand = false) := busWrite_getReg_result s.popTurn hr ha hs
      exact .inl ⟨hidle, herr, hres .res0 rfl, hres .res1 rfl, hres .res2 rfl⟩
  · exact .inr (.inr (by simp [hreset]))

/-! ### A write that races with completion -/

/-- The outside world holds no register. -/
@[simp] theorem withEnv_getReg (ts : List Turn) (rs : List Response) (s : State) (r : DataReg) :
    (s.withEnv ts rs).getReg r = s.getReg r := by
  cases r <;> rfl

/-- A dropped write leaves the command in flight as it is (10_state.md R36). -/
theorem noteDropped_sameCommand (s : State) : s.SameCommand s.noteDropped := ⟨rfl, by simp, rfl, rfl, rfl⟩

theorem poll_of_busy {s : State} (hb : s.busy = true) : s.poll = s.complete := by
  rw [State.poll, if_pos hb]

/-- A completion leaves the operand registers (10_state.md R22). -/
theorem complete_getReg_operand (s : State) {r : DataReg} (ho : r.isOperand = true) :
    s.complete.getReg r = s.getReg r := s.finish_getReg_operand _ r ho

/-- A write of an operand register leaves the result registers. -/
theorem State.setReg_getReg_result (s : State) {r q : DataReg} (ho : r.isOperand = true) (hq : q.isOperand = false)
    (ws : List Word) : (s.setReg r ws).getReg q = s.getReg q := by
  refine s.setReg_getReg_other r q ws ?_
  rintro rfl
  simp [ho] at hq

/-- The operand write of a busy block and then the engine's turn: the write is dropped (20_memory.md R59). -/
theorem leads_write_complete {s : State} {r : DataReg} {k : Nat} (hn : s.cfg.nwords ≤ 256) (hk : k < s.cfg.nwords)
    (ho : r.isOperand = true) (hb : s.busy = true) (hr : s.resetAsserted = false) (v : Word) :
    State.Leads [wr s.cfg (r.base + 4 * k) v, .engine] s s.noteDropped.complete := by
  have hwrite := leads_wr rfl hr (r.base_lt (lt_of_lt_of_le hk hn)) (r.base_add_mod k) v
  rw [busWrite_operand_busy hn hk ho hb] at hwrite
  have hengine := leads_engine (s := s.noteDropped) hr
  rw [poll_of_busy (s := s.noteDropped) hb] at hengine
  exact leads_append hwrite hengine

/-- The engine's turn and then the operand write: the write lands in the idle block (20_memory.md R59). -/
theorem leads_complete_write {s : State} {r : DataReg} {k : Nat} (hn : s.cfg.nwords ≤ 256) (hk : k < s.cfg.nwords)
    (ho : r.isOperand = true) (hb : s.busy = true) (hr : s.resetAsserted = false) (v : Word) :
    State.Leads [.engine, wr s.cfg (r.base + 4 * k) v] s (s.complete.setReg r (putWord (s.getReg r) k v)) := by
  have hengine := leads_engine hr
  rw [poll_of_busy hb] at hengine
  have hwrite := leads_wr (complete_cfg s) (by simpa using hr) (r.base_lt (lt_of_lt_of_le hk hn)) (r.base_add_mod k) v
  rw [busWrite_operand_idle (by simpa) (by simpa) ho (complete_busy s), complete_getReg_operand s ho] at hwrite
  exact leads_append hengine hwrite

/-- Settles O31: in the one order the dropped write leaves the command that completes, in the other it finds the
completed block. -/
theorem racingWriteHasBothOutcomes : Obligations.RacingWriteHasBothOutcomes := by
  intro s r k v rest hs hb hr ho hk
  refine ⟨?_, ?_⟩
  · obtain ⟨rs, hrun⟩ := leads_write_complete hs.nwords_le hk ho hb hr v rest s.responses
    have hsame := noteDropped_sameCommand s
    refine ⟨_, hrun, ?_, complete_wbusy _, hsame.complete_err, hsame.complete_getReg .res0,
      hsame.complete_getReg .res1, hsame.complete_getReg .res2⟩
    rw [withEnv_getReg, complete_getReg_operand _ ho, State.noteDropped_getReg]
  · obtain ⟨rs, hrun⟩ := leads_complete_write hs.nwords_le hk ho hb hr v rest s.responses
    have hres (q : DataReg) (hq : q.isOperand = false) :=
      s.complete.setReg_getReg_result ho hq (putWord (s.getReg r) k v)
    refine ⟨_, hrun, ?_, ?_, State.setReg_err .., hres .res0 rfl, hres .res1 rfl, hres .res2 rfl⟩
    · rw [withEnv_getReg, State.setReg_getReg_same]
    · exact (State.setReg_wbusy ..).trans (complete_wbusy s)

end Sys2Proof.Machine
end

section
/-! PROOFS. The encoding: which words and bytes are commands, what an illegal word does, and the transactions of RDW. -/

namespace Sys2Proof.Machine

/-! ### Words -/

/-- A word is read as a command exactly when it is that command's encoding (30_encoding.md R70, R71). -/
theorem decodeWord_eq_command_iff {w : Word} {i : Instr} : decodeWord w = .command i ↔ w = encode i := by
  constructor
  · intro h
    obtain ⟨j, hj, hrsv, hop⟩ | ⟨why, hill⟩ := decodeWord_cases w
    · obtain rfl : j = i := Decoded.command.inj (hj.symm.trans h)
      rw [word_eq_fields w, hrsv, hop, encode]
    · cases hill.symm.trans h
  · rintro rfl
    exact decodeWord_encode i

theorem decodeWord_of_rsv_ne_zero {w : Word} (h : rsvField w ≠ 0) : decodeWord w = .illegal .reservedBitsSet :=
  if_neg h

/-- No command has one of the codes that 30_encoding.md R76 reserves. -/
theorem opOf_not_reserved (i : Instr) : opOf i ≠ 0 ∧ (opOf i).toNat < 6 := by cases i <;> decide

theorem decodeOp_reserved {op : BitVec 4} (h : op = 0 ∨ 6 ≤ op.toNat) : decodeOp op = .illegal .reservedOpcode := by
  have hne (i : Instr) : op ≠ opOf i := by
    rintro rfl
    obtain ⟨h0, h6⟩ := opOf_not_reserved i
    exact h.elim h0 (by omega)
  exact (if_neg (hne .egcd)).trans <| (if_neg (hne .modinv)).trans <| (if_neg (hne .modexp)).trans <|
    (if_neg (hne .encstep)).trans (if_neg (hne .decstep))

theorem decodeWord_of_op_reserved {w : Word} (hrsv : rsvField w = 0) (hop : opField w = 0 ∨ 6 ≤ (opField w).toNat) :
    decodeWord w = .illegal .reservedOpcode :=
  (if_pos hrsv).trans (decodeOp_reserved hop)

/-- The three illegal cases of 30_encoding.md R76 together. -/
theorem decodeWord_illegal {w : Word} (h : opField w = 0 ∨ 6 ≤ (opField w).toNat ∨ rsvField w ≠ 0) :
    ∃ why, decodeWord w = .illegal why := by
  by_cases hrsv : rsvField w = 0
  · exact ⟨_, decodeWord_of_op_reserved hrsv (by simpa [hrsv] using h)⟩
  · exact ⟨_, decodeWord_of_rsv_ne_zero hrsv⟩

/-- A number below 16 is all OP. -/
theorem rsvField_ofNat {op : Nat} (h : op < 16) : rsvField (BitVec.ofNat 32 op) = 0#28 := by
  apply BitVec.eq_of_toNat_eq
  rw [rsvField, BitVec.extractLsb'_toNat, BitVec.toNat_ofNat, Nat.shiftRight_eq_div_pow, BitVec.toNat_zero]
  omega

theorem opField_ofNat_toNat {op : Nat} (h : op < 16) : (opField (BitVec.ofNat 32 op)).toNat = op := by
  rw [opField, BitVec.extractLsb'_toNat, BitVec.toNat_ofNat, Nat.shiftRight_zero]
  omega

/-! ### Bytes -/

theorem wordOfLanes_toNat (b0 b1 b2 b3 : Byte) : (wordOfLanes b0 b1 b2 b3).toNat =
    b0.toNat + 2 ^ 8 * b1.toNat + 2 ^ 16 * b2.toNat + 2 ^ 24 * b3.toNat := by
  have h0 := b0.isLt
  have h1 := b1.isLt
  have h2 := b2.isLt
  simp only [wordOfLanes, BitVec.toNat_append]
  rw [← Nat.shiftLeft_add_eq_or_of_lt h2, ← Nat.shiftLeft_add_eq_or_of_lt h1, ← Nat.shiftLeft_add_eq_or_of_lt h0]
  simp only [Nat.shiftLeft_eq]
  omega

/-- Four bytes are the lanes of the word they make (20_memory.md R53); `wordOfLanes_lanes` is the other direction. -/
theorem lanes_wordOfLanes (b0 b1 b2 b3 : Byte) : lanes (wordOfLanes b0 b1 b2 b3) = [b0, b1, b2, b3] := by
  have hlane (k : Nat) (b : Byte) (h : (wordOfLanes b0 b1 b2 b3).toNat / 2 ^ (8 * k) % 2 ^ 8 = b.toNat) :
      laneOf (wordOfLanes b0 b1 b2 b3) k = b := BitVec.eq_of_toNat_eq ((laneOf_toNat _ k).trans h)
  rw [wordOfLanes_toNat] at hlane
  rw [lanes, hlane 0 b0 (by omega), hlane 1 b1 (by omega), hlane 2 b2 (by omega), hlane 3 b3 (by omega)]

/-- Bytes are read as a command and a rest exactly when they are its encoding followed by that rest. -/
theorem decodeBytes_eq_command_iff {bs rest : List Byte} {i : Instr} :
    decodeBytes bs = (.command i, rest) ↔ bs = encodeBytes i ++ rest := by
  constructor
  · intro h
    rw [decodeBytes.eq_def] at h
    split at h
    · next b0 b1 b2 b3 tail =>
      obtain ⟨hword, rfl⟩ := Prod.mk.inj h
      rw [encodeBytes, ← decodeWord_eq_command_iff.1 hword, lanes_wordOfLanes]
      rfl
    · cases h
  · rintro rfl
    rw [encodeBytes, decodeBytes_lanes, decodeWord_encode]

/-- The table's decoder reads a command word as its command (20_memory.md R53). -/
theorem decodeTableWord_of_command {w : Word} {i : Instr} (h : decodeWord w = .command i) :
    decodeTableWord 32 w.toNat = some i := by
  have hbytes : decodeBytes (lanes w) = (.command i, []) := by simpa [h] using decodeBytes_lanes w []
  rw [decodeTableWord, Nat.mod_eq_of_lt w.isLt, BitVec.ofNat_toNat, BitVec.setWidth_eq, hbytes]

/-- Settles O3: a word is its two fields, and four bytes are the lanes of the word they make. -/
theorem onlyTheCommandWordsDecode : Obligations.OnlyTheCommandWordsDecode :=
  ⟨fun _ _ => decodeWord_eq_command_iff, fun _ => decodeWord_of_rsv_ne_zero, fun _ => decodeWord_of_op_reserved,
    fun _ _ _ => decodeBytes_eq_command_iff⟩

/-- Settles O2, as one direction of the reading of bytes. -/
theorem encodedBytesDecodeBack : Obligations.EncodedBytesDecodeBack :=
  fun i _ _ => ⟨decodeBytes_eq_command_iff.2 rfl, decodeTableWord_of_command (decodeWord_encode i)⟩

/-- Settles O1: the five words are encodings, and the others have a reserved OP. -/
theorem commandWordsDecodeAsTheMapSays : Obligations.CommandWordsDecodeAsTheMapSays := by
  refine ⟨decodeWord_encode .egcd, decodeWord_encode .modinv, decodeWord_encode .modexp, decodeWord_encode .encstep,
    decodeWord_encode .decstep, decodeWord_of_op_reserved rfl (.inl rfl), fun op h6 h15 => ?_⟩
  have hop : op < 16 := by omega
  exact decodeWord_of_op_reserved (rsvField_ofNat hop) (.inr (by rwa [opField_ofNat_toNat hop]))

/-! ### The step on an illegal word, and RDW -/

/-- An illegal word ends in ILLEGAL_OPCODE whatever the operands (30_encoding.md R72). -/
theorem execute_of_illegal {n : Nat} {cur : Word} {why : IllegalWord} {A B C : List Word}
    (h : decodeWord cur = .illegal why) : execute n cur A B C = .raise .illegalOpcode := by
  rw [execute, h]

/-- Settles O7: the completion raises, and a raise writes BUSY, DONE and ERR only. -/
theorem illegalWordsCompleteWithIllegalOpcode : Obligations.IllegalWordsCompleteWithIllegalOpcode := by
  intro s he hb hr hill
  obtain ⟨why, hwhy⟩ := decodeWord_illegal hill
  rw [step_completes he hb hr, complete_of_raise (execute_of_illegal (cur := s.popTurn.cur) hwhy)]
  rfl

/-- Settles O49: the listed reads answer the words read, and those are the whole register. -/
theorem rdwReadsEveryWord : Obligations.RdwReadsEveryWord := by
  intro s r rest hs hr hts
  have hrun := run_rdwFrom hs.nwords_le r 0 s.cfg.nwords rest s.responses s rfl (Nat.zero_add _).le hr
  rwa [← rdw, ← hts, withEnv_self, readWords_all s hs] at hrun

end Sys2Proof.Machine
end

section
/-! PROOFS. EGCD: the loop of EgcdCore, its invariants and its last turn, and the command's results. -/

namespace Sys2Proof.Machine

/-! ### One turn, and the loop -/

/-- On naturals the remainder of 40_egcd.md R105 is `%`. -/
theorem egcdIter_b (v : EgcdVars) : (egcdIter v).b = v.a % v.b :=
  Nat.mod_eq_sub_div_mul.symm

/-- A turn leaves `a` above `b`, whatever it found. -/
theorem egcdIter_b_lt {v : EgcdVars} (hb : v.b ≠ 0) : (egcdIter v).b < (egcdIter v).a := by
  rw [egcdIter_b]
  exact Nat.mod_lt _ (Nat.pos_of_ne_zero hb)

theorem egcdLoop_of_b_eq_zero (n : Nat) {v : EgcdVars} (hb : v.b = 0) : egcdLoop n v = v := by
  cases n with
  | zero => rfl
  | succ n => rw [egcdLoop, if_pos hb]

theorem egcdLoop_succ_of_b_ne_zero (n : Nat) {v : EgcdVars} (hb : v.b ≠ 0) :
    egcdLoop (n + 1) v = egcdLoop n (egcdIter v) := by
  rw [egcdLoop, if_neg hb]

/-- What a turn keeps, the loop keeps. -/
theorem egcdLoop_induction {P : EgcdVars → Prop} (hturn : ∀ v, v.b ≠ 0 → P v → P (egcdIter v)) (n : Nat) {v : EgcdVars}
    (hv : P v) : P (egcdLoop n v) := by
  induction n generalizing v with
  | zero => exact hv
  | succ n ih =>
    by_cases hb : v.b = 0
    · rwa [egcdLoop_of_b_eq_zero _ hb]
    · rw [egcdLoop_succ_of_b_ne_zero n hb]
      exact ih (hturn v hb hv)

/-- Fuel of at least `b` ends the loop (40_egcd.md R106), because each turn makes `b` smaller. -/
theorem egcdLoop_b_eq_zero {n : Nat} {v : EgcdVars} (h : v.b ≤ n) : (egcdLoop n v).b = 0 := by
  induction n generalizing v with
  | zero => exact Nat.le_zero.1 h
  | succ n ih =>
    by_cases hb : v.b = 0
    · rwa [egcdLoop_of_b_eq_zero _ hb]
    · rw [egcdLoop_succ_of_b_ne_zero n hb]
      exact ih (Nat.le_of_lt_succ ((egcdIter_b_lt hb).trans_le h))

theorem egcdLoop_add (m n : Nat) (v : EgcdVars) : egcdLoop (m + n) v = egcdLoop n (egcdLoop m v) := by
  induction m generalizing v with
  | zero => rw [Nat.zero_add, egcdLoop]
  | succ m ih =>
    by_cases hb : v.b = 0
    · simp only [egcdLoop_of_b_eq_zero _ hb]
    · rw [Nat.add_right_comm, egcdLoop_succ_of_b_ne_zero _ hb, egcdLoop_succ_of_b_ne_zero _ hb, ih]

/-- More fuel than ends the loop changes nothing. -/
theorem egcdLoop_eq_of_le {m n : Nat} {v : EgcdVars} (hm : v.b ≤ m) (hmn : m ≤ n) : egcdLoop n v = egcdLoop m v := by
  obtain ⟨k, rfl⟩ := Nat.exists_eq_add_of_le hmn
  rw [egcdLoop_add, egcdLoop_of_b_eq_zero k (egcdLoop_b_eq_zero hm)]

/-- A loop that turns at all and ends has a last turn, taken from variables the loop reaches. -/
theorem egcdLoop_eq_last_turn {n : Nat} {v : EgcdVars} (hb : v.b ≠ 0) (h : v.b ≤ n) :
    ∃ k, (egcdLoop k v).b ≠ 0 ∧ egcdLoop n v = egcdIter (egcdLoop k v) := by
  induction n generalizing v with
  | zero => exact absurd (Nat.le_zero.1 h) hb
  | succ n ih =>
    rw [egcdLoop_succ_of_b_ne_zero n hb]
    by_cases hb' : (egcdIter v).b = 0
    · exact ⟨0, hb, egcdLoop_of_b_eq_zero n hb'⟩
    · obtain ⟨k, hk, hlast⟩ := ih hb' (Nat.le_of_lt_succ ((egcdIter_b_lt hb).trans_le h))
      exact ⟨k + 1, by rwa [egcdLoop_succ_of_b_ne_zero k hb], by rwa [egcdLoop_succ_of_b_ne_zero k hb]⟩

/-- The loop starts at its initial variables, and after any turn `a` is above `b`. -/
theorem egcdLoop_eq_init_or_b_lt (a b n : Nat) :
    egcdLoop n (egcdInit a b) = egcdInit a b ∨ (egcdLoop n (egcdInit a b)).b < (egcdLoop n (egcdInit a b)).a :=
  egcdLoop_induction (P := fun v => v = egcdInit a b ∨ v.b < v.a) (fun _ hb _ => .inr (egcdIter_b_lt hb)) n (.inl rfl)

/-- Settles O35: `b` bounds the turns left, since a turn leaves a remainder by `b`. -/
theorem egcdLoopTerminates : Obligations.EgcdLoopTerminates :=
  ⟨fun v hb => ⟨egcdIter_b v, egcdIter_b_lt hb⟩,
    fun _ b _ => ⟨egcdLoop_b_eq_zero (Nat.le_succ b), fun _ h => egcdLoop_eq_of_le (Nat.le_succ b) h⟩⟩

/-! ### The invariants -/

/-- The loop invariants of 40_egcd.md R100: both remainders are combinations of the operands. -/
structure EgcdVars.Bezout (a0 b0 : Nat) (v : EgcdVars) : Prop where
  a_eq : (v.a : Int) = a0 * v.x2 + b0 * v.y2
  b_eq : (v.b : Int) = a0 * v.x1 + b0 * v.y1

theorem egcdInit_bezout (a0 b0 : Nat) : (egcdInit a0 b0).Bezout a0 b0 :=
  ⟨by simp [egcdInit], by simp [egcdInit]⟩

theorem egcdIter_bezout {a0 b0 : Nat} {v : EgcdVars} (h : v.Bezout a0 b0) : (egcdIter v).Bezout a0 b0 where
  a_eq := h.b_eq
  b_eq := by
    have hrem : ((egcdIter v).b : Int) = v.a - (v.a / v.b : Nat) * v.b := by
      rw [egcdIter, Nat.cast_sub (Nat.div_mul_le_self v.a v.b), Nat.cast_mul]
    rw [hrem, h.a_eq, h.b_eq]
    simp only [egcdIter]
    ring

theorem egcdLoop_bezout (a b n : Nat) : (egcdLoop n (egcdInit a b)).Bezout a b :=
  egcdLoop_induction (P := EgcdVars.Bezout a b) (fun _ _ => egcdIter_bezout) n (egcdInit_bezout a b)

theorem egcdLoop_gcd (n : Nat) (v : EgcdVars) : Nat.gcd (egcdLoop n v).a (egcdLoop n v).b = Nat.gcd v.a v.b := by
  refine egcdLoop_induction (P := fun u => Nat.gcd u.a u.b = Nat.gcd v.a v.b) (fun u _ h => ?_) n rfl
  calc Nat.gcd u.b (egcdIter u).b = Nat.gcd (u.a % u.b) u.b := by rw [egcdIter_b, Nat.gcd_comm]
    _ = Nat.gcd u.a u.b := by rw [← Nat.gcd_rec, Nat.gcd_comm]
    _ = Nat.gcd v.a v.b := h

/-- The coefficients by sign and magnitude. The sign `σ` turns over at every turn, so a new magnitude is a sum, and the
magnitudes weighted by the remainders add up to the operands. -/
structure EgcdVars.Balance (a0 b0 : Nat) (v : EgcdVars) (σ : ℤˣ) (p1 p2 r1 r2 : Nat) : Prop where
  x1_eq : v.x1 = -σ * p1
  x2_eq : v.x2 = σ * p2
  y1_eq : v.y1 = σ * r1
  y2_eq : v.y2 = -σ * r2
  x_total : v.a * p1 + v.b * p2 = b0
  y_total : v.a * r1 + v.b * r2 = a0

theorem egcdInit_balance (a0 b0 : Nat) : (egcdInit a0 b0).Balance a0 b0 1 0 1 1 0 := by
  constructor <;> simp [egcdInit]

/-- A turn keeps a total weighted by the remainders. -/
theorem egcdIter_total (v : EgcdVars) (p1 p2 : Nat) :
    (egcdIter v).a * (p2 + v.a / v.b * p1) + (egcdIter v).b * p1 = v.a * p1 + v.b * p2 := by
  rw [egcdIter_b]
  calc v.b * (p2 + v.a / v.b * p1) + v.a % v.b * p1
      = (v.b * (v.a / v.b) + v.a % v.b) * p1 + v.b * p2 := by ring
    _ = v.a * p1 + v.b * p2 := by rw [Nat.div_add_mod]

theorem egcdIter_balance {a0 b0 : Nat} {v : EgcdVars} {σ : ℤˣ} {p1 p2 r1 r2 : Nat}
    (h : v.Balance a0 b0 σ p1 p2 r1 r2) :
    (egcdIter v).Balance a0 b0 (-σ) (p2 + v.a / v.b * p1) p1 (r2 + v.a / v.b * r1) r1 where
  x1_eq := by
    simp only [egcdIter, h.x1_eq, h.x2_eq]
    push_cast
    ring
  x2_eq := h.x1_eq
  y1_eq := by
    simp only [egcdIter, h.y1_eq, h.y2_eq]
    push_cast
    ring
  y2_eq := by simpa [egcdIter] using h.y1_eq
  x_total := (egcdIter_total v p1 p2).trans h.x_total
  y_total := (egcdIter_total v r1 r2).trans h.y_total

theorem egcdLoop_balance (a b n : Nat) : ∃ σ p1 p2 r1 r2, (egcdLoop n (egcdInit a b)).Balance a b σ p1 p2 r1 r2 :=
  egcdLoop_induction (P := fun v => ∃ σ p1 p2 r1 r2, v.Balance a b σ p1 p2 r1 r2)
    (fun _ _ ⟨_, _, _, _, _, h⟩ => ⟨_, _, _, _, _, egcdIter_balance h⟩) n ⟨_, _, _, _, _, egcdInit_balance a b⟩

section
variable {a0 b0 : Nat} {v : EgcdVars} {σ : ℤˣ} {p1 p2 r1 r2 : Nat}

theorem EgcdVars.Balance.x1_natAbs (h : v.Balance a0 b0 σ p1 p2 r1 r2) : v.x1.natAbs = p1 := by
  simp [h.x1_eq, Int.natAbs_mul]

theorem EgcdVars.Balance.y1_natAbs (h : v.Balance a0 b0 σ p1 p2 r1 r2) : v.y1.natAbs = r1 := by
  simp [h.y1_eq, Int.natAbs_mul]

theorem EgcdVars.Balance.x1_mul_y1_nonpos (h : v.Balance a0 b0 σ p1 p2 r1 r2) : v.x1 * v.y1 ≤ 0 := by
  have hσ : (σ : Int) * σ = 1 := Int.units_coe_mul_self σ
  have hprod : v.x1 * v.y1 = -(σ * σ) * (p1 * r1) := by
    rw [h.x1_eq, h.y1_eq]
    ring
  rw [hprod, hσ, neg_one_mul, neg_nonpos]
  positivity

end

/-- Settles O36: every turn keeps both equations. -/
theorem egcdLoopKeepsItsInvariants : Obligations.EgcdLoopKeepsItsInvariants :=
  fun a b n _ => ⟨(egcdLoop_bezout a b n).a_eq, (egcdLoop_bezout a b n).b_eq⟩

/-! ### What EgcdCore returns -/

/-- When the loop has ended, `a` is the greatest common divisor. -/
theorem egcdLoop_a_eq_gcd (a b : Nat) : (egcdLoop (b + 1) (egcdInit a b)).a = Nat.gcd a b := by
  have h := egcdLoop_gcd (b + 1) (egcdInit a b)
  rwa [egcdLoop_b_eq_zero (Nat.le_succ b), Nat.gcd_zero_right] at h

theorem egcdCore_gcd (a b : Nat) : (egcdCore a b).1 = Nat.gcd a b := egcdLoop_a_eq_gcd a b

/-- Bézout's identity for what EgcdCore returns (40_egcd.md R102). -/
theorem egcdCore_bezout (a b : Nat) : (a : Int) * (egcdCore a b).2.1 + b * (egcdCore a b).2.2 = Nat.gcd a b := by
  rw [← egcdCore_gcd]
  exact (egcdLoop_bezout a b (b + 1)).a_eq.symm

/-- Settles O37: with `b = 0` the weighted magnitudes are `g * |x1| = b0` and `g * |y1| = a0`. -/
theorem egcdLastCoefficients : Obligations.EgcdLastCoefficients := by
  intro a b hb
  obtain ⟨σ, p1, p2, r1, r2, h⟩ := egcdLoop_balance a b (b + 1)
  have hg : 0 < Nat.gcd a b := Nat.gcd_pos_of_pos_right a hb
  have hx := h.x_total
  have hy := h.y_total
  rw [egcdLoop_a_eq_gcd, egcdLoop_b_eq_zero (Nat.le_succ b), Nat.zero_mul, Nat.add_zero] at hx hy
  rw [h.x1_natAbs, h.y1_natAbs]
  exact ⟨Nat.eq_div_of_mul_eq_right hg.ne' hx, Nat.eq_div_of_mul_eq_right hg.ne' hy, h.x1_mul_y1_nonpos⟩

/-- A term of a total is at most half of it when its weight is a multiple of `g` above `g`. -/
theorem two_mul_le_of_total {g a p1 p2 c : Nat} (hdvd : g ∣ a) (hlt : g < a) (h : a * p1 + g * p2 = c) :
    2 * g * p1 ≤ c := by
  obtain ⟨q, rfl⟩ := hdvd
  have hq : 2 ≤ q := Nat.lt_of_mul_lt_mul_left (by rwa [Nat.mul_one] : g * 1 < g * q)
  calc 2 * g * p1 ≤ q * g * p1 := Nat.mul_le_mul_right p1 (Nat.mul_le_mul_right g hq)
    _ ≤ c := by rw [← h, Nat.mul_comm q]; exact Nat.le_add_right _ _

/-- The coefficient bound of 40_egcd.md R103. EgcdCore returns the `x1` and `y1` that its last turn finds. That turn is
the first one, and they are 0 and 1, or it divides an `a` above `b` exactly, so that its quotient is at least 2. -/
theorem egcdCore_bound (a : Nat) {b : Nat} (hb : 0 < b) :
    2 * Nat.gcd a b * (egcdCore a b).2.1.natAbs ≤ max (2 * Nat.gcd a b) b ∧
    2 * Nat.gcd a b * (egcdCore a b).2.2.natAbs ≤ max (2 * Nat.gcd a b) a := by
  obtain ⟨k, -, hlast⟩ := egcdLoop_eq_last_turn (v := egcdInit a b) (n := b + 1) hb.ne' (Nat.le_succ b)
  obtain ⟨σ, p1, p2, r1, r2, h⟩ := egcdLoop_balance a b k
  have hinit := egcdLoop_eq_init_or_b_lt a b k
  generalize egcdLoop k (egcdInit a b) = u at *
  have hx : (egcdCore a b).2.1 = u.x1 := congrArg EgcdVars.x2 hlast
  have hy : (egcdCore a b).2.2 = u.y1 := congrArg EgcdVars.y2 hlast
  have hg : Nat.gcd a b = u.b := (egcdLoop_a_eq_gcd a b).symm.trans (congrArg EgcdVars.a hlast)
  have hdvd : u.b ∣ u.a := Nat.dvd_of_mod_eq_zero <| by
    rw [← egcdIter_b, ← hlast, egcdLoop_b_eq_zero (Nat.le_succ b)]
  rw [hx, hy]
  obtain rfl | hlt := hinit
  · simp [egcdInit]
  · rw [hg, h.x1_natAbs, h.y1_natAbs]
    exact ⟨(two_mul_le_of_total hdvd hlt h.x_total).trans (le_max_right _ _),
      (two_mul_le_of_total hdvd hlt h.y_total).trans (le_max_right _ _)⟩

/-! ### The corner cases -/

/-- The variables with the coefficients of the two operands exchanged. -/
def EgcdVars.swap (v : EgcdVars) : EgcdVars := { v with x1 := v.y1, x2 := v.y2, y1 := v.x1, y2 := v.x2 }

theorem egcdLoop_swap (n : Nat) (v : EgcdVars) : egcdLoop n v.swap = (egcdLoop n v).swap := by
  induction n generalizing v with
  | zero => rfl
  | succ n ih =>
    by_cases hb : v.b = 0
    · rw [egcdLoop_of_b_eq_zero _ hb, egcdLoop_of_b_eq_zero _ (v := v.swap) hb]
    · rw [egcdLoop_succ_of_b_ne_zero n hb, egcdLoop_succ_of_b_ne_zero n (v := v.swap) hb, ← ih]
      rfl

/-- Below `b`, the first turn only exchanges the operands. -/
theorem egcdIter_init_of_lt {a b : Nat} (h : a < b) : egcdIter (egcdInit a b) = (egcdInit b a).swap := by
  simp [egcdIter, egcdInit, EgcdVars.swap, Nat.div_eq_of_lt h]

theorem egcdCore_of_lt {a b : Nat} (h : a < b) :
    egcdCore a b = ((egcdCore b a).1, (egcdCore b a).2.2, (egcdCore b a).2.1) := by
  have hb : (egcdInit a b).b ≠ 0 := Nat.ne_of_gt (Nat.zero_lt_of_lt h)
  have hloop : egcdLoop (b + 1) (egcdInit a b) = (egcdLoop (a + 1) (egcdInit b a)).swap := by
    rw [egcdLoop_succ_of_b_ne_zero b hb, egcdIter_init_of_lt h, egcdLoop_swap]
    exact congrArg EgcdVars.swap (egcdLoop_eq_of_le (Nat.le_succ a) h)
  rw [egcdCore, hloop]
  rfl

/-- When `b` divides `a`, the first turn is the last. -/
theorem egcdCore_of_dvd {a b : Nat} (hb : 0 < b) (h : b ∣ a) : egcdCore a b = (b, 0, 1) := by
  have hend : (egcdIter (egcdInit a b)).b = 0 := (egcdIter_b _).trans (Nat.mod_eq_zero_of_dvd h)
  rw [egcdCore, egcdLoop_succ_of_b_ne_zero (v := egcdInit a b) b hb.ne', egcdLoop_of_b_eq_zero b hend]
  rfl

/-- Neighbours: the first turn leaves the remainder 1, the second ends the loop. -/
theorem egcdCore_succ_self {b : Nat} (hb : 2 ≤ b) : egcdCore (b + 1) b = (1, 1, -1) := by
  have hfirst : egcdIter (egcdInit (b + 1) b) = { a := b, b := 1, x1 := 1, x2 := 0, y1 := -1, y2 := 1 } := by
    simp [egcdIter, egcdInit, Nat.add_div_left 1 (show 0 < b by omega), Nat.div_eq_of_lt hb]
  rw [egcdCore, egcdLoop_succ_of_b_ne_zero (v := egcdInit (b + 1) b) b (show b ≠ 0 by omega), hfirst]
  obtain ⟨k, rfl⟩ := Nat.exists_eq_add_of_le' hb
  rw [egcdLoop_succ_of_b_ne_zero (k + 1) Nat.one_ne_zero,
    egcdLoop_of_b_eq_zero (k + 1) ((egcdIter_b _).trans (Nat.mod_one _))]
  simp [egcdIter]

/-- Settles O38: a divisor ends the loop at once, a smaller `a` is exchanged with `b`, and neighbours take two turns. -/
theorem egcdCornerCases : Obligations.EgcdCornerCases := by
  refine ⟨fun b hb => egcdCore_of_dvd hb (Nat.dvd_zero b), fun a ha => egcdCore_of_dvd ha (Nat.dvd_refl a),
    fun a b hb _ h => egcdCore_of_dvd hb h, fun a b ha hab h => ?_, fun a b _ hab => egcdCore_of_lt hab, fun W hW => ?_⟩
  · rw [egcdCore_of_lt hab, egcdCore_of_dvd ha h]
  · have hpow : 2 ^ 32 ≤ 2 ^ W := Nat.pow_le_pow_right (Nat.succ_pos 1) hW
    have hsucc : 2 ^ W - 1 = (2 ^ W - 2) + 1 := by omega
    rw [hsucc]
    exact egcdCore_succ_self (by omega)

/-! ### The command -/

/-- Settles O32: both branches of the command, performed and ended. -/
theorem egcdFollowsItsPseudocode : Obligations.EgcdFollowsItsPseudocode := by
  intro s
  constructor
  · intro hb
    rw [exec, execEgcd, egcdCommand, if_neg hb]
    rfl
  · intro hb
    rw [exec, execEgcd, egcdCommand, if_pos hb]
    rfl

theorem State.Sized.nwords_pos {s : State} (hs : s.Sized) : 0 < s.cfg.nwords := (nwords_of_wf hs.cfgWf).1

/-- A register holds a value below 2^W (10_state.md R22). -/
theorem State.Sized.uint_getReg_lt {s : State} (hs : s.Sized) (r : DataReg) : uint (s.getReg r) < 2 ^ s.cfg.width := by
  have h := uint_lt (s.getReg r)
  rwa [hs.regLen] at h

/-- The bound of 40_egcd.md R103 for operands `c` of W bits: half of the range, with room for the coefficient 1. -/
theorem natAbs_le_of_bound {g c W : Nat} {z : Int} (hg : 0 < g) (hW : 2 ≤ W) (hc : c < 2 ^ W)
    (h : 2 * g * z.natAbs ≤ max (2 * g) c) : z.natAbs ≤ 2 ^ (W - 1) - 1 := by
  obtain ⟨n, rfl⟩ := Nat.exists_eq_add_of_le' hW
  have hroom : 1 ≤ 2 ^ n := Nat.one_le_two_pow
  rw [show n + 2 - 1 = n + 1 from rfl]
  rw [Nat.pow_succ] at hc
  rcases le_max_iff.1 h with h1 | h2
  · have hz : z.natAbs ≤ 1 := Nat.le_of_mul_le_mul_left (by rwa [Nat.mul_one]) (show 0 < 2 * g by omega)
    rw [Nat.pow_succ]
    omega
  · have hz : 2 * z.natAbs ≤ c := (Nat.mul_le_mul_right _ (by omega)).trans h2
    omega

/-- A coefficient in the bound is read back from its result register (00_scope.md R9). -/
theorem sint_twosComplement_of_natAbs_le {n : Nat} {z : Int} (hn : 0 < n) (h : z.natAbs ≤ 2 ^ (32 * n - 1) - 1) :
    sint (twosComplement n z) = z := by
  have hpow : ((2 ^ (32 * n - 1) : Nat) : Int) = 2 ^ (32 * n - 1) := by simp
  have hpos : 0 < 2 ^ (32 * n - 1) := Nat.two_pow_pos _
  refine sint_twosComplement hn ?_ ?_ <;> rw [← hpow] <;> omega

section
variable {s : State} (hs : s.Sized) (hb : uint s.opb ≠ 0)
include hs hb

/-- The coefficients of any operands stay below 2^(W-1) (40_egcd.md R103). -/
theorem egcdCore_natAbs_le :
    (egcdCore (uint s.opa) (uint s.opb)).2.1.natAbs ≤ 2 ^ (s.cfg.width - 1) - 1 ∧
    (egcdCore (uint s.opa) (uint s.opb)).2.2.natAbs ≤ 2 ^ (s.cfg.width - 1) - 1 := by
  have hpos : 0 < uint s.opb := Nat.pos_of_ne_zero hb
  have hg : 0 < Nat.gcd (uint s.opa) (uint s.opb) := Nat.gcd_pos_of_pos_right _ hpos
  have hn := hs.nwords_pos
  have hW : 2 ≤ s.cfg.width := by
    rw [Config.width]
    omega
  obtain ⟨hx, hy⟩ := egcdCore_bound (uint s.opa) hpos
  exact ⟨natAbs_le_of_bound hg hW (hs.uint_getReg_lt .opb) hx, natAbs_le_of_bound hg hW (hs.uint_getReg_lt .opa) hy⟩

/-- What EGCD leaves, read as integers: EgcdCore's values, none of them wrapped (40_egcd.md R101, R103). -/
theorem exec_egcd_values : ∃ t, exec .egcd s = .next t ∧ t.err = 0 ∧ t.busy = false ∧ t.done = true ∧
    uint t.res0 = Nat.gcd (uint s.opa) (uint s.opb) ∧ sint t.res1 = (egcdCore (uint s.opa) (uint s.opb)).2.1 ∧
    sint t.res2 = (egcdCore (uint s.opa) (uint s.opb)).2.2 := by
  obtain ⟨hx, hy⟩ := egcdCore_natAbs_le hs hb
  have hle : Nat.gcd (uint s.opa) (uint s.opb) ≤ uint s.opb := Nat.gcd_le_right _ (Nat.pos_of_ne_zero hb)
  refine ⟨_, (egcdFollowsItsPseudocode s).1 hb, rfl, rfl, rfl, ?_, sint_twosComplement_of_natAbs_le hs.nwords_pos hx,
    sint_twosComplement_of_natAbs_le hs.nwords_pos hy⟩
  rw [egcdCore_gcd]
  exact uint_toWords_of_lt (hle.trans_lt (hs.uint_getReg_lt .opb))

end

/-- Settles O34: the bound of the last turn, and what it says of W-bit operands. -/
theorem egcdCoefficientsAreBounded : Obligations.EgcdCoefficientsAreBounded := by
  refine ⟨fun a b hb => ?_, fun s hs hb => ?_⟩
  · rw [egcdCore_gcd]
    exact egcdCore_bound a hb
  · obtain ⟨hx, hy⟩ := egcdCore_natAbs_le hs hb
    obtain ⟨t, hexec, -, -, -, -, h1, h2⟩ := exec_egcd_values hs hb
    exact ⟨hx, hy, t, hexec, h1, h2⟩

/-- Settles O33: the registers hold EgcdCore's values unwrapped, and those satisfy Bézout's identity. -/
theorem egcdResultsSatisfyBezout : Obligations.EgcdResultsSatisfyBezout := by
  intro s hs hb
  have hpos : 0 < uint s.opb := Nat.pos_of_ne_zero hb
  obtain ⟨t, hexec, herr, hbusy, hdone, h0, h1, h2⟩ := exec_egcd_values hs hb
  refine ⟨t, hexec, herr, hbusy, hdone, h0, ?_, ?_, ?_⟩
  · rw [h0, h1, h2]
    exact egcdCore_bezout _ _
  · rw [h0]
    exact Nat.gcd_pos_of_pos_right _ hpos
  · rw [h0]
    exact (Nat.gcd_le_right _ hpos).trans (le_max_right _ _)

end Sys2Proof.Machine
end

section
/-! PROOFS. MODINV: the canonical residue of EgcdCore's coefficient, and the command's three ends. -/

namespace Sys2Proof.Machine

/-! ### The canonical residue -/

theorem canonicalResidue_eq (x : Int) (phi : Nat) :
    canonicalResidue x phi = x + (if x < 0 then (phi : Int) else 0) := by
  rw [canonicalResidue]
  split_ifs
  · rfl
  · rw [add_zero]

/-- The normalisation adds a multiple of the modulus. -/
theorem canonicalResidue_modEq (x : Int) (phi : Nat) : canonicalResidue x phi ≡ x [ZMOD phi] := by
  rw [canonicalResidue]
  split_ifs
  · exact Int.add_modEq_right
  · exact Int.ModEq.refl x

/-- One addition of the modulus is enough (41_modinv.md R111). -/
theorem canonicalResidue_range {x : Int} {phi : Nat} (hlo : -(phi : Int) < x) (hhi : x < phi) :
    0 ≤ canonicalResidue x phi ∧ canonicalResidue x phi < phi := by
  rw [canonicalResidue]
  split_ifs <;> omega

/-! ### EgcdCore on coprime operands -/

/-- By Bézout's identity the raw coefficient is an inverse. -/
theorem mul_egcdCore_modEq_one {e phi : Nat} (hgcd : Nat.gcd e phi = 1) :
    (e : Int) * (egcdCore e phi).2.1 ≡ 1 [ZMOD phi] := by
  have hbezout := egcdCore_bezout e phi
  rw [hgcd] at hbezout
  exact Int.modEq_iff_dvd.2 ⟨(egcdCore e phi).2.2, by rw [← Nat.cast_one, ← hbezout]; ring⟩

section
variable {e phi : Nat} (hphi : 2 ≤ phi) (hgcd : Nat.gcd e phi = 1)
include hphi hgcd

/-- The raw coefficient lies strictly between -phi and phi, by the bound of 40_egcd.md R103. -/
theorem egcdCore_coefficient_range : -(phi : Int) < (egcdCore e phi).2.1 ∧ (egcdCore e phi).2.1 < phi := by
  have hbound := (egcdCore_bound e (Nat.zero_lt_of_lt hphi)).1
  rw [hgcd] at hbound
  omega

/-- The canonical residue is an inverse below phi. -/
theorem exists_inverse_eq_canonicalResidue : ∃ d : Nat, canonicalResidue (egcdCore e phi).2.1 phi = d ∧ d < phi ∧
    e * d % phi = 1 := by
  obtain ⟨hlo, hhi⟩ := egcdCore_coefficient_range hphi hgcd
  obtain ⟨hnonneg, hlt⟩ := canonicalResidue_range hlo hhi
  obtain ⟨d, hd⟩ := Int.eq_ofNat_of_zero_le hnonneg
  have hinv : ((e * d : Nat) : Int) ≡ (1 : Nat) [ZMOD phi] := by
    rw [Nat.cast_mul, ← hd]
    exact ((canonicalResidue_modEq _ phi).mul_left e).trans (mul_egcdCore_modEq_one hgcd)
  exact ⟨d, hd, by omega, Nat.mod_eq_of_modEq (Int.natCast_modEq_iff.1 hinv) hphi⟩

end

/-- Inverses below the modulus are equal. -/
theorem inverse_unique {e phi d d' : Nat} (hgcd : Nat.gcd e phi = 1) (hlt : d < phi) (hlt' : d' < phi)
    (h : e * d % phi = 1) (h' : e * d' % phi = 1) : d' = d :=
  have hmul : e * d' ≡ e * d [MOD phi] := h'.trans h.symm
  (hmul.cancel_left_of_coprime ((Nat.gcd_comm phi e).trans hgcd)).eq_of_lt_of_lt hlt' hlt

/-- Zero is no inverse, so an inverse is at least 1. -/
theorem inverse_pos {e phi d : Nat} (h : e * d % phi = 1) : 1 ≤ d := by
  refine Nat.pos_of_ne_zero ?_
  rintro rfl
  simp at h

/-! ### The command -/

/-- The first end: ILLEGAL_OPERAND, checked before the gcd (60_exceptions.md R166). -/
theorem exec_modinv_illegalOperand {s : State} (h : uint s.opa = 0 ∨ uint s.opb ≤ 1) :
    exec .modinv s = .next (s.endCommand 2) := by
  rw [exec_eq_finish, commandResult, modinvCommand, if_pos h]
  rfl

section
variable {s : State} (h : ¬(uint s.opa = 0 ∨ uint s.opb ≤ 1))
include h

/-- The second end: NO_INVERSE. -/
theorem exec_modinv_noInverse (hgcd : Nat.gcd (uint s.opa) (uint s.opb) ≠ 1) :
    exec .modinv s = .next (s.endCommand 3) := by
  rw [exec_eq_finish, commandResult, modinvCommand, if_neg h, egcdCore_gcd, if_pos hgcd]
  rfl

/-- The third end: only RES0 is written. -/
theorem exec_modinv_coprime (hgcd : Nat.gcd (uint s.opa) (uint s.opb) = 1) :
    exec .modinv s = .next (State.endCommand 0 { s with
      res0 := toWords s.cfg.nwords (canonicalResidue (egcdCore (uint s.opa) (uint s.opb)).2.1 (uint s.opb)).toNat }) := by
  rw [exec_eq_finish, commandResult, modinvCommand, if_neg h, egcdCore_gcd, if_neg (not_not_intro hgcd)]
  rfl

end

/-- Settles O39: the canonical residue is below phi, so RES0 holds it whole, and it is the only inverse there. -/
theorem modinvReturnsTheInverse : Obligations.ModinvReturnsTheInverse := by
  intro s hs he hphi hgcd
  obtain ⟨hlo, hhi⟩ := egcdCore_coefficient_range hphi hgcd
  obtain ⟨d, hd, hlt, hinv⟩ := exists_inverse_eq_canonicalResidue hphi hgcd
  have hexec := exec_modinv_coprime (by omega) hgcd
  rw [hd, Int.toNat_natCast] at hexec
  have hres : uint (toWords s.cfg.nwords d) = d := uint_toWords_of_lt (hlt.trans (hs.uint_getReg_lt .opb))
  refine ⟨_, hexec, rfl, rfl, rfl, ?_⟩
  rw [State.endCommand, hres, ← canonicalResidue_eq, hd]
  exact ⟨inverse_pos hinv, hlt, hinv, fun d' hlt' hinv' => inverse_unique hgcd hlt hlt' hinv hinv', hlo, hhi, rfl, rfl,
    rfl⟩

/-- Settles O40: each end of the command, with the condition that leads to it. -/
theorem modinvErrors : Obligations.ModinvErrors := by
  intro s
  by_cases h : uint s.opa = 0 ∨ uint s.opb ≤ 1
  · exact ⟨_, exec_modinv_illegalOperand h, iff_of_false (show 2#4 ≠ 3#4 by decide) (by omega), iff_of_true rfl h,
      fun _ => rfl⟩
  · by_cases hgcd : Nat.gcd (uint s.opa) (uint s.opb) = 1
    · exact ⟨_, exec_modinv_coprime h hgcd, iff_of_false (show 0#4 ≠ 3#4 by decide) (fun ⟨_, _, hne⟩ => hne hgcd),
        iff_of_false (show 0#4 ≠ 2#4 by decide) h, fun herr => absurd rfl herr⟩
    · exact ⟨_, exec_modinv_noInverse h hgcd, iff_of_true rfl ⟨by omega, by omega, hgcd⟩,
        iff_of_false (show 3#4 ≠ 2#4 by decide) h, fun _ => rfl⟩

end Sys2Proof.Machine
end

section
/-! PROOFS. MODEXP, ENCSTEP and DECSTEP: the loop of ModPow, the three commands, and what they have in common. -/

namespace Sys2Proof.Machine

/-! ### ModPow -/

/-- The bit of the exponent that a turn reads, and the square it leaves, make up the power. -/
theorem mul_pow_halves (acc b e : Nat) : (if e % 2 = 1 then acc * b else acc) * (b * b) ^ (e / 2) = acc * b ^ e := by
  have hhalves : b ^ e = b ^ (e % 2) * (b * b) ^ (e / 2) := by
    rw [← Nat.pow_two, ← Nat.pow_mul, ← Nat.pow_add, Nat.mod_add_div]
  rw [hhalves]
  split_ifs with h
  · rw [h, Nat.pow_one, Nat.mul_assoc]
  · rw [Nat.mod_two_ne_one.1 h, Nat.pow_zero, Nat.one_mul]

/-- The loop multiplies its accumulator by the power when it has fuel for every bit of the exponent. -/
theorem modPowLoop_eq {fuel e : Nat} (acc b n : Nat) (h : e < 2 ^ fuel) :
    modPowLoop fuel (acc % n) b e n = acc * b ^ e % n := by
  induction fuel generalizing acc b e with
  | zero =>
    obtain rfl : e = 0 := Nat.lt_one_iff.1 h
    rw [modPowLoop, Nat.pow_zero, Nat.mul_one]
  | succ fuel ih =>
    have hacc : (if e % 2 = 1 then acc % n * b % n else acc % n) = (if e % 2 = 1 then acc * b else acc) % n := by
      rw [Nat.mod_mul_mod, apply_ite (· % n)]
    have hsquare : (b * b % n) ^ (e / 2) ≡ (b * b) ^ (e / 2) [MOD n] := (Nat.mod_modEq _ n).pow _
    rw [modPowLoop, hacc, ih _ _ (by omega), hsquare.mul_left _, mul_pow_halves]

/-- ModPow is the remainder of the exact power (42_modexp.md R120). -/
@[simp] theorem modPow_eq_pow_mod (m e n : Nat) : modPow m e n = m ^ e % n := by
  have hpow : (m % n) ^ e ≡ m ^ e [MOD n] := (Nat.mod_modEq m n).pow e
  rw [modPow, modPowLoop_eq 1 _ _ Nat.lt_log2_self, Nat.one_mul, hpow]

/-- Settles O41: a remainder is the one number below the modulus in its class. -/
theorem modPowIsTheResidue : Obligations.ModPowIsTheResidue := by
  intro m e n hn
  have hlt : m ^ e % n < n := Nat.mod_lt _ hn
  simp only [modPow_eq_pow_mod]
  exact ⟨hlt, Nat.mod_modEq _ n, fun r hr h => (Nat.mod_eq_of_modEq h.symm hr).symm, by rw [Nat.pow_zero], Nat.mod_one _⟩

/-! ### The commands on every operand -/

/-- Settles O42: the two ends of the command, performed. -/
theorem modexpResult : Obligations.ModexpResult := by
  intro s
  rw [exec_eq_finish, commandResult, modexpCommand, modPow_eq_pow_mod]
  split_ifs <;> rfl

/-- Settles O43: the three ends of the command in the order of its checks, performed. -/
theorem encstepResult : Obligations.EncstepResult := by
  intro s
  rw [exec_eq_finish, commandResult, encstepCommand, modPow_eq_pow_mod]
  split_ifs <;> rfl

/-- Settles O44: the three ends of the command in the order of its checks, performed. -/
theorem decstepResult : Obligations.DecstepResult := by
  intro s
  rw [exec_eq_finish, commandResult, decstepCommand, modPow_eq_pow_mod, maxCodePoint]
  split_ifs <;> rfl

/-! ### What the three commands have in common -/

/-- The three commands that use ModPow: each raises, or writes a number below the modulus to RES0 (42_modexp.md R124). -/
theorem powerCommand_cases {i : Instr} (hi : i = .modexp ∨ i = .encstep ∨ i = .decstep) (n : Nat) (A B C : List Word) :
    (∃ e, commandResult n i A B C = .raise e) ∨ ∃ v < uint C, commandResult n i A B C = completeRes0 n v := by
  by_cases hC : uint C = 0
  · refine .inl ⟨.illegalOperand, ?_⟩
    obtain rfl | rfl | rfl := hi <;> exact if_pos hC
  · have hlt : modPow (uint A) (uint B) (uint C) < uint C :=
      (modPowIsTheResidue _ _ _ (Nat.pos_of_ne_zero hC)).1
    obtain rfl | rfl | rfl := hi
    · exact .inr ⟨_, hlt, if_neg hC⟩
    · by_cases hlarge : uint C ≤ uint A
      · exact .inl ⟨.charTooLarge, (if_neg hC).trans (if_pos hlarge)⟩
      · exact .inr ⟨_, hlt, (if_neg hC).trans (if_neg hlarge)⟩
    · by_cases hinvalid : maxCodePoint < modPow (uint A) (uint B) (uint C)
      · exact .inl ⟨.invalidChar, (if_neg hC).trans (if_pos hinvalid)⟩
      · exact .inr ⟨_, hlt, (if_neg hC).trans (if_neg hinvalid)⟩

/-- Code 0 is no error's (60_exceptions.md R160). -/
theorem CmdError.code_ne_zero (e : CmdError) : e.code ≠ 0 := by cases e <;> decide

/-- Settles O45: both states end with one result, and what RES0 is given is below the modulus. -/
theorem powerCommandsArePure : Obligations.PowerCommandsArePure := by
  intro i hi s s' _ hn hA hB hC
  have hexec' := exec_eq_finish i s'
  rw [hn, hA, hB, hC] at hexec'
  refine ⟨_, _, exec_eq_finish i s, hexec', by simp only [State.finish_err], fun herr => ?_⟩
  obtain ⟨e, hraise⟩ | ⟨v, hv, hres⟩ := powerCommand_cases hi s.cfg.nwords s.opa s.opb s.opc
  · rw [hraise] at herr
    exact absurd herr e.code_ne_zero
  · rw [hres]
    refine ⟨rfl, ?_⟩
    calc uint (toWords s.cfg.nwords v) = v % 2 ^ (32 * s.cfg.nwords) := uint_toWords _ _
      _ ≤ v := Nat.mod_le _ _
      _ < uint s.opc := hv

end Sys2Proof.Machine
end

section
/-! PROOFS. The host procedures as bus transactions: RunCmd, one element of a codec, and the codecs to their end or to
their first error. -/

namespace Sys2Proof.Machine

/-! ### RunCmd and one element -/

/-- The listed moves up to and with CHECK: what CHECK answers comes last. -/
theorem run_through_check {ts rest : List Turn} {s t : State} (h : State.Leads ts s t) (hc : t.cfg = s.cfg)
    (hr : t.resetAsserted = false) (hts : s.turns = (ts ++ [rd s.cfg 0x0008]) ++ rest) :
    ∃ rs : List Response, Host.Core.run Sys2Proof.core (ts ++ [rd s.cfg 0x0008]).length s =
      .next { t with turns := rest, responses := .readOk t.status :: (rs ++ s.responses) } := by
  rw [List.append_assoc] at hts
  rw [List.length_append]
  exact run_check h hc hr hts

section
variable (a b : Nat) (n : Option Nat) (s : State)

@[simp] theorem writeOperands_cfg : (writeOperands a b n s).cfg = s.cfg := by
  cases n <;> simp [writeOperands]

@[simp] theorem writeOperands_resetAsserted : (writeOperands a b n s).resetAsserted = s.resetAsserted := by
  cases n <;> simp [writeOperands]

@[simp] theorem runCmd_cfg (word : Word) : (runCmd word a b n s).2.cfg = s.cfg := by
  simp [runCmd]

@[simp] theorem runCmd_resetAsserted (word : Word) : (runCmd word a b n s).2.resetAsserted = s.resetAsserted := by
  simp [runCmd]

@[simp] theorem stepElement_cfg (word : Word) (m : Nat) : (stepElement word m s).cfg = s.cfg := by
  simp [stepElement]

@[simp] theorem stepElement_resetAsserted (word : Word) (m : Nat) :
    (stepElement word m s).resetAsserted = s.resetAsserted := by
  simp [stepElement]

end

section
variable {c : Config} (hn : c.nwords ≤ 256) {s : State} (hc : s.cfg = c) (hr : s.resetAsserted = false)
include hn hc hr

/-- The operand writes of RunCmd (43_host_procedures.md R141). -/
theorem leads_operands (a b : Nat) (n : Option Nat) :
    State.Leads (operandTurns c a b n) s (writeOperands a b n s) := by
  have hab : State.Leads (wrw c .opa a ++ wrw c .opb b) s (writeReg .opb b (writeReg .opa a s)) :=
    leads_append (leads_wrw hn hc hr .opa a) (leads_wrw hn (by simpa) (by simpa) .opb b)
  cases n with
  | none => exact hab
  | some v =>
    rw [operandTurns, ← List.append_assoc]
    exact leads_append hab (leads_wrw hn (by simpa) (by simpa) .opc v)

/-- RunCmd before CHECK: the first POLL, the operand writes, RUN. -/
theorem leads_runCmd (word : Word) (a b : Nat) (n : Option Nat) (j k : Nat) :
    State.Leads (pollTurns c j ++ (operandTurns c a b n ++ runTurns c word k)) s (runCmd word a b n s).2 :=
  leads_append (leads_poll j hc hr) <|
    leads_append (leads_operands hn (by simpa) (by simpa) a b n) (leads_run word k (by simpa) (by simpa))

/-- One element of a codec before CHECK: the write of OPA and RUN (43_host_procedures.md R146, R147). -/
theorem leads_stepElement (word : Word) (m k : Nat) :
    State.Leads (wrw c .opa m ++ runTurns c word k) s (stepElement word m s) :=
  leads_append (leads_wrw hn hc hr .opa m) (leads_run word k (by simpa) (by simpa))

/-- The writes of the key before the first element. -/
theorem leads_key (e n : Nat) : State.Leads (keyTurns c e n) s (writeReg .opc n (writeReg .opb e s)) :=
  leads_append (leads_wrw hn hc hr .opb e) (leads_wrw hn (by simpa) (by simpa) .opc n)

end

theorem runCmdTurns_eq (c : Config) (word : Word) (a b : Nat) (n : Option Nat) (j k : Nat) :
    runCmdTurns c word a b n j k =
      (pollTurns c j ++ (operandTurns c a b n ++ runTurns c word k)) ++ [rd c 0x0008] := by
  simp only [runCmdTurns, List.append_assoc]

theorem elementTurns_eq (c : Config) (word : Word) (m k : Nat) :
    elementTurns c word m k = (wrw c .opa m ++ runTurns c word k) ++ [rd c 0x0008] := by
  rw [elementTurns, List.append_assoc]

/-- Settles O48: the moves before CHECK lead to what RunCmd leaves, and CHECK reads its STATUS. -/
theorem runCmdIsItsBusTransactions : Obligations.RunCmdIsItsBusTransactions := by
  intro s word a b n j k rest hwf hr hts
  obtain ⟨-, hn, -⟩ := nwords_of_wf hwf
  rw [runCmdTurns_eq] at hts ⊢
  exact run_through_check (leads_runCmd hn rfl hr word a b n j k) (by simp) (by simpa) hts

/-- Settles O59: the moves before CHECK lead to what the element leaves, and CHECK reads its STATUS. -/
theorem codecElementIsItsBusTransactions : Obligations.CodecElementIsItsBusTransactions := by
  intro s word m k rest hwf hr hts
  obtain ⟨-, hn, -⟩ := nwords_of_wf hwf
  rw [elementTurns_eq] at hts ⊢
  exact run_through_check (leads_stepElement hn rfl hr word m k) (by simp) (by simpa) hts

/-! ### The codecs -/

/-- A failed command is reported as one of the source's errors or as its code (43_host_procedures.md R150). -/
theorem failReply_cases (α : Type) (code : BitVec 4) :
    (∃ err, (failReply code : ProcReply α) = .error err) ∨ (failReply code : ProcReply α) = .fail code := by
  unfold failReply
  cases sourceErrorOf code with
  | none => exact .inr rfl
  | some err => exact .inl ⟨err, rfl⟩

theorem failReply_ne_ok {α : Type} (code : BitVec 4) (a : α) : (failReply code : ProcReply α) ≠ .ok a := by
  obtain ⟨err, herr⟩ | hfail := failReply_cases α code
  · simp [herr]
  · simp [hfail]

section
variable {word : Word} {m : Nat} {ms out : List Nat} {s t : State}

/-- An element that ends with an error ends the loop (43_host_procedures.md R146, R147). -/
theorem codecLoop_cons_of_error (h : (stepElement word m s).check ≠ 0) :
    codecLoop word (m :: ms) s = (failReply (stepElement word m s).check, stepElement word m s) := by
  rw [codecLoop, if_neg h]

/-- An element that ends without error puts RES0 before what the later elements give. -/
theorem codecLoop_cons_of_ok (h : (stepElement word m s).check = 0)
    (hms : codecLoop word ms (stepElement word m s) = (.ok out, t)) :
    codecLoop word (m :: ms) s = (.ok ((stepElement word m s).readReg .res0 :: out), t) := by
  rw [codecLoop, if_pos h, hms]

/-- An element that ends without error leaves a later element's error as it is. -/
theorem codecLoop_cons_of_later_error {code : BitVec 4} (h : (stepElement word m s).check = 0)
    (hms : codecLoop word ms (stepElement word m s) = (failReply code, t)) :
    codecLoop word (m :: ms) s = (failReply code, t) := by
  rw [codecLoop, if_pos h, hms]
  obtain ⟨err, herr⟩ | hfail := failReply_cases (List Nat) code
  · rw [herr]
  · rw [hfail]

/-- A loop that answers a sequence: its first element ended without error, and the others answered the rest of it. -/
theorem codecLoop_cons_ok_inv (h : codecLoop word (m :: ms) s = (.ok out, t)) :
    (stepElement word m s).check = 0 ∧ ∃ rest, codecLoop word ms (stepElement word m s) = (.ok rest, t) := by
  by_cases hm : (stepElement word m s).check = 0
  · refine ⟨hm, ?_⟩
    rw [codecLoop, if_pos hm] at h
    split at h
    · next rest u hrest =>
      obtain ⟨-, rfl⟩ := Prod.mk.inj h
      exact ⟨rest, hrest⟩
    · cases h
    · cases h
  · rw [codecLoop_cons_of_error hm] at h
    exact absurd (Prod.mk.inj h).1 (failReply_ne_ok _ _)

/-- Elements that answer a sequence, and then one that ends with an error: the error is the answer, whatever follows. -/
theorem codecLoop_append_of_error (hms : codecLoop word ms s = (.ok out, t)) (h : (stepElement word m t).check ≠ 0)
    (more : List Nat) :
    codecLoop word (ms ++ m :: more) s = (failReply (stepElement word m t).check, stepElement word m t) := by
  induction ms generalizing s out with
  | nil =>
    obtain ⟨-, rfl⟩ := Prod.mk.inj hms
    exact codecLoop_cons_of_error h
  | cons m' ms ih =>
    obtain ⟨hm', rest, hrest⟩ := codecLoop_cons_ok_inv hms
    exact codecLoop_cons_of_later_error hm' (ih hrest)

end

/-- A loop that answers a sequence keeps the parameters and the reset input. -/
theorem codecLoop_ok_frame {word : Word} {ms out : List Nat} {s t : State} (h : codecLoop word ms s = (.ok out, t)) :
    t.cfg = s.cfg ∧ t.resetAsserted = s.resetAsserted := by
  induction ms generalizing s out with
  | nil =>
    obtain ⟨-, rfl⟩ := Prod.mk.inj h
    exact ⟨rfl, rfl⟩
  | cons m ms ih =>
    obtain ⟨-, rest, hrest⟩ := codecLoop_cons_ok_inv h
    simpa using ih hrest

/-- The elements of a loop that answers a sequence: each one's transactions and its read of RES0. -/
theorem leads_codecLoop {c : Config} (hn : c.nwords ≤ 256) {word : Word} {els : List (Nat × Nat)} {out : List Nat}
    {s t : State} (hc : s.cfg = c) (hr : s.resetAsserted = false)
    (h : codecLoop word (els.map Prod.fst) s = (.ok out, t)) : State.Leads (codecTurns c word els) s t := by
  induction els generalizing s out with
  | nil =>
    obtain ⟨-, rfl⟩ := Prod.mk.inj h
    exact leads_nil s
  | cons el els ih =>
    obtain ⟨m, k⟩ := el
    obtain ⟨-, rest, hrest⟩ := codecLoop_cons_ok_inv h
    have hc' : (stepElement word m s).cfg = c := by simpa
    have hr' : (stepElement word m s).resetAsserted = false := by simpa
    rw [codecTurns, elementTurns_eq]
    exact leads_append
      (leads_append (leads_stepElement hn hc hr word m k) (leads_rd hc' hr' (off := 8) (by decide) rfl))
      (leads_append (leads_rdw hn hc' hr' .res0) (ih hc' hr' hrest))

/-- Settles O60: the key writes and the elements lead to what the loop leaves, and an element with an error is one
element more. -/
theorem codecsAreTheirBusTransactions : Obligations.CodecsAreTheirBusTransactions := by
  intro word codec hcodec s u e n els out rest hwf hr hok
  have hloop : codec = fun ms e n s => codecLoop word ms (writeReg .opc n (writeReg .opb e s)) := by
    obtain ⟨rfl, rfl⟩ | ⟨rfl, rfl⟩ := hcodec <;> rfl
  subst hloop
  obtain ⟨-, hn, -⟩ := nwords_of_wf hwf
  obtain ⟨hcu, hru⟩ := codecLoop_ok_frame hok
  rw [writeReg_cfg, writeReg_cfg] at hcu
  rw [writeReg_resetAsserted, writeReg_resetAsserted, hr] at hru
  have hleads : State.Leads (keyTurns s.cfg e n ++ codecTurns s.cfg word els) s u :=
    leads_append (leads_key hn rfl hr e n) (leads_codecLoop hn (by simp) (by simpa) hok)
  refine ⟨fun hts => ?_, fun m k more herr => ⟨codecLoop_append_of_error hok herr more, fun hts => ?_⟩⟩
  · obtain ⟨rs, hrun⟩ := hleads rest s.responses
    rw [List.append_assoc, ← hts, withEnv_self] at hrun
    exact ⟨rs, hrun⟩
  · have hall := leads_append hleads (leads_stepElement hn hcu hru word m k)
    have hlist : keyTurns s.cfg e n ++ (codecTurns s.cfg word els ++ elementTurns s.cfg word m k) =
        (keyTurns s.cfg e n ++ codecTurns s.cfg word els ++ (wrw s.cfg .opa m ++ runTurns s.cfg word k)) ++
          [rd s.cfg 0x0008] := by
      simp only [elementTurns_eq, List.append_assoc]
    rw [hlist]
    refine run_through_check hall (by simpa) (by simpa) ?_
    rw [hts, ← hlist]
    simp only [List.append_assoc]

end Sys2Proof.Machine
end

section
/-! PROOFS. One command driven by the host: what its register writes and RUN leave, and what RunCmd of EGCD and of
MODINV answers. -/

namespace Sys2Proof.Machine

/-! ### Operand writes and RUN -/

/-- The block has the parameters `c` and registers of their size: what the host's driver relies on. -/
structure State.Fits (c : Config) (s : State) : Prop where
  sized : s.Sized
  cfg_eq : s.cfg = c

theorem poll_fits {c : Config} {s : State} (h : s.Fits c) : s.poll.Fits c :=
  ⟨poll_sized h.sized, (poll_cfg s).trans h.cfg_eq⟩

section
variable {c : Config} {s : State} (h : s.Fits c) (hidle : s.busy = false)
include h hidle

section
variable {r : DataReg} (ho : r.isOperand = true) (v : Nat)
include ho

theorem writeReg_fits : (writeReg r v s).Fits c := by
  refine ⟨?_, (writeReg_cfg r v s).trans h.cfg_eq⟩
  rw [writeReg_eq s h.sized r ho hidle]
  exact setReg_sized h.sized r v

theorem writeReg_idle : (writeReg r v s).busy = false := by
  rw [writeReg_eq s h.sized r ho hidle, State.setReg_busy, hidle]

/-- `WRW` of a value below 2^W puts that value in the register. -/
theorem uint_writeReg_same (hv : v < 2 ^ c.width) : uint ((writeReg r v s).getReg r) = v := by
  rw [writeReg_eq s h.sized r ho hidle, State.setReg_getReg_same, h.cfg_eq, uint_toWords_of_lt hv]

theorem writeReg_getReg_other {q : DataReg} (hq : q ≠ r) : (writeReg r v s).getReg q = s.getReg q := by
  rw [writeReg_eq s h.sized r ho hidle, State.setReg_getReg_other s r q _ hq]

end

theorem runCommand_fits (word : Word) : (s.runCommand word).Fits c := by
  refine ⟨?_, (runCommand_cfg word s).trans h.cfg_eq⟩
  rw [State.runCommand, busWrite_cmd, writeCmd_idle hidle]
  exact poll_sized (start_sized h.sized word)

end

@[simp] theorem runCommand_busy (word : Word) (s : State) : (s.runCommand word).busy = false := poll_busy _

/-- RUN leaves the operand registers (10_state.md R22). -/
theorem runCommand_getReg_operand {s : State} (hidle : s.busy = false) (word : Word) {r : DataReg}
    (ho : r.isOperand = true) : (s.runCommand word).getReg r = s.getReg r := by
  rw [runCommand_eq hidle, State.finish_getReg_operand _ _ r ho, State.start_getReg]

/-- RUN of a command word is that command's meaning on the started block. -/
theorem exec_start {s : State} (hidle : s.busy = false) (i : Instr) :
    exec i (s.start (encode i)) = .next (s.runCommand (encode i)) := by
  rw [exec_eq_finish, runCommand_eq hidle, execute, decodeWord_encode]
  rfl

theorem runCommand_of_exec {s t : State} {i : Instr} (hidle : s.busy = false)
    (h : exec i (s.start (encode i)) = .next t) : s.runCommand (encode i) = t := by
  rw [exec_start hidle] at h
  exact Host.Outcome.next.inj h

/-! ### RunCmd with two operands -/

section
variable {c : Config} {s : State} (h : s.Fits c) {a b : Nat}
include h

theorem runCmd_fits (word : Word) (a b : Nat) : (runCmd word a b none s).2.Fits c :=
  have ha := writeReg_fits (poll_fits h) (poll_busy s) (r := .opa) rfl a
  have ha_idle := writeReg_idle (poll_fits h) (poll_busy s) (r := .opa) rfl a
  runCommand_fits (writeReg_fits ha ha_idle (r := .opb) rfl b) (writeReg_idle ha ha_idle (r := .opb) rfl b) word

/-- The block before RUN: idle, with the operands in OPA and OPB. -/
theorem writeOperands_ready (ha : a < 2 ^ c.width) (hb : b < 2 ^ c.width) :
    (writeOperands a b none s.poll).Fits c ∧ (writeOperands a b none s.poll).busy = false ∧
    uint (writeOperands a b none s.poll).opa = a ∧ uint (writeOperands a b none s.poll).opb = b := by
  have hfits := writeReg_fits (poll_fits h) (poll_busy s) (r := .opa) rfl a
  have hidle := writeReg_idle (poll_fits h) (poll_busy s) (r := .opa) rfl a
  have hopa := uint_writeReg_same (poll_fits h) (poll_busy s) (r := .opa) rfl a ha
  rw [← writeReg_getReg_other hfits hidle (r := .opb) rfl b (q := .opa) (by decide)] at hopa
  exact ⟨writeReg_fits hfits hidle rfl b, writeReg_idle hfits hidle rfl b, hopa,
    uint_writeReg_same hfits hidle (r := .opb) rfl b hb⟩

variable (ha : a < 2 ^ c.width) (hb : b < 2 ^ c.width)
include ha hb

/-- RunCmd of EGCD answers EgcdCore's triple (40_egcd.md R102, R103). -/
theorem runCmd_egcd (hpos : 0 < b) : (runCmd (encode .egcd) a b none s).1 =
    .ok (Nat.gcd a b) (egcdCore a b).2.1 (egcdCore a b).2.2 := by
  obtain ⟨hfits, hidle, hopa, hopb⟩ := writeOperands_ready h ha hb
  rw [runCmd]
  generalize writeOperands a b none s.poll = t at *
  obtain ⟨u, hexec, herr, -, -, h0, h1, h2⟩ :=
    exec_egcd_values (start_sized hfits.sized (encode .egcd)) (by rw [State.start_opb, hopb]; exact hpos.ne')
  rw [State.start_opa, State.start_opb, hopa, hopb] at h0 h1 h2
  rw [reply_eq (runCommand_fits hfits hidle _).sized, runCommand_of_exec hidle hexec, if_pos herr, h0, h1, h2]

section
variable (hpos : 0 < a) (hphi : 1 < b)
include hpos hphi

/-- RunCmd of MODINV on coprime operands answers the inverse in RES0 (41_modinv.md R111). -/
theorem runCmd_modinv_coprime (hgcd : Nat.gcd a b = 1) :
    ∃ d r1 r2, (runCmd (encode .modinv) a b none s).1 = .ok d r1 r2 ∧ 1 ≤ d ∧ d < b ∧ a * d % b = 1 := by
  obtain ⟨hfits, hidle, hopa, hopb⟩ := writeOperands_ready h ha hb
  rw [runCmd]
  generalize writeOperands a b none s.poll = t at *
  have hinverse := modinvReturnsTheInverse (t.start (encode .modinv)) (start_sized hfits.sized _)
  rw [State.start_opa, State.start_opb, hopa, hopb] at hinverse
  obtain ⟨u, hexec, herr, -, -, h1, hlt, hinv, -⟩ := hinverse hpos hphi hgcd
  refine ⟨uint u.res0, sint u.res1, sint u.res2, ?_, h1, hlt, hinv⟩
  rw [reply_eq (runCommand_fits hfits hidle _).sized, runCommand_of_exec hidle hexec, if_pos herr]

/-- RunCmd of MODINV on other operands fails with NO_INVERSE (41_modinv.md R112). -/
theorem runCmd_modinv_noInverse (hgcd : Nat.gcd a b ≠ 1) :
    (runCmd (encode .modinv) a b none s).1 = .fail CmdError.noInverse.code := by
  obtain ⟨hfits, hidle, hopa, hopb⟩ := writeOperands_ready h ha hb
  rw [runCmd]
  generalize writeOperands a b none s.poll = t at *
  have hexec : exec .modinv (t.start (encode .modinv)) = _ :=
    exec_modinv_noInverse (by rw [State.start_opa, State.start_opb, hopa, hopb]; omega)
      (by rwa [State.start_opa, State.start_opb, hopa, hopb])
  rw [reply_eq (runCommand_fits hfits hidle _).sized, runCommand_of_exec hidle hexec, State.endCommand_err,
    if_neg (by decide)]
  rfl

end

/-! ### egcd and mod_inverse -/

/-- The source's `egcd` (43_host_procedures.md R142). -/
theorem procEgcd_eq (hpos : 0 < b) : procEgcd a b s =
    (.ok (Nat.gcd a b, (egcdCore a b).2.1, (egcdCore a b).2.2), (runCmd (encode .egcd) a b none s).2) := by
  rw [procEgcd, ← Prod.mk.eta (p := runCmd (encode .egcd) a b none s), runCmd_egcd h ha hb hpos]

section
variable (hpos : 0 < a) (hphi : 1 < b)
include hpos hphi

/-- The source's `mod_inverse` on coprime operands (43_host_procedures.md R142). -/
theorem procModInverse_coprime (hgcd : Nat.gcd a b = 1) : ∃ d,
    procModInverse a b s = (.ok d, (runCmd (encode .modinv) a b none s).2) ∧ 1 ≤ d ∧ d < b ∧ a * d % b = 1 := by
  obtain ⟨d, r1, r2, hreply, hd⟩ := runCmd_modinv_coprime h ha hb hpos hphi hgcd
  refine ⟨d, ?_, hd⟩
  rw [procModInverse, ← Prod.mk.eta (p := runCmd (encode .modinv) a b none s), hreply]

/-- The source's `mod_inverse` on other operands. -/
theorem procModInverse_noInverse (hgcd : Nat.gcd a b ≠ 1) :
    procModInverse a b s = (.error .noInverseExists, (runCmd (encode .modinv) a b none s).2) := by
  rw [procModInverse, ← Prod.mk.eta (p := runCmd (encode .modinv) a b none s),
    runCmd_modinv_noInverse h ha hb hpos hphi hgcd]
  rfl

end

end

/-- Settles O50: each procedure passes on what RunCmd of its command answers, and leaves what RunCmd leaves. -/
theorem egcdAndModInverseAreSingleCommands : Obligations.EgcdAndModInverseAreSingleCommands := by
  intro s a b hs _ ha hb
  have h : s.Fits s.cfg := ⟨hs, rfl⟩
  refine ⟨fun hpos => ?_, fun hpos hphi hgcd => procModInverse_coprime h ha hb hpos hphi hgcd,
    fun hpos hphi hgcd => procModInverse_noInverse h ha hb hpos hphi hgcd⟩
  exact ⟨_, _, procEgcd_eq h ha hb hpos, by rw [← egcdCore_gcd], egcdCore_bezout a b⟩

end Sys2Proof.Machine
end

section
/-! PROOFS. The exponent generator, the selection of an exponent and key assembly: the loops over 7, 9, 11, … find the
candidates in order. -/

namespace Sys2Proof.Machine

/-! ### The candidates as a list -/

/-- What the loops ask of a number: it is below phi, coprime to it, and not phi - 1 (43_host_procedures.md R143). -/
def passes (phi e : Nat) : Bool := e < phi && Nat.gcd e phi == 1 && e != phi - 1

theorem passes_iff {phi e : Nat} : passes phi e = true ↔ e < phi ∧ Nat.gcd e phi = 1 ∧ e ≠ phi - 1 := by
  simp [passes, and_assoc]

/-- The numbers that pass among the `fuel` numbers e, e + 2, e + 4, … -/
def passingFrom (phi fuel e : Nat) : List Nat := (List.range' e fuel 2).filter (passes phi)

/-- The candidates (43_host_procedures.md R143), in increasing order. -/
def candidates (phi : Nat) : List Nat := passingFrom phi phi 7

theorem mem_candidates {phi e : Nat} : e ∈ candidates phi ↔ IsCandidate phi e := by
  rw [candidates, passingFrom, List.mem_filter, List.mem_range', passes_iff, IsCandidate]
  constructor
  · rintro ⟨⟨i, -, rfl⟩, hlt, hgcd, hne⟩
    exact ⟨by omega, by omega, hlt, hgcd, hne⟩
  · rintro ⟨hodd, h7, hlt, hgcd, hne⟩
    exact ⟨⟨(e - 7) / 2, by omega, by omega⟩, hlt, hgcd, hne⟩

theorem candidates_pairwise_lt (phi : Nat) : (candidates phi).Pairwise (· < ·) :=
  (List.pairwise_lt_range' (step := 2)).filter (passes phi)

theorem candidates_eq_nil_of_le {phi : Nat} (h : phi ≤ 7) : candidates phi = [] := by
  refine List.eq_nil_iff_forall_not_mem.2 fun e he => ?_
  obtain ⟨-, h7, hlt, -⟩ := mem_candidates.1 he
  omega

theorem candidates_eq_nil_iff {phi : Nat} : candidates phi = [] ↔ ∀ e, ¬IsCandidate phi e := by
  simp only [List.eq_nil_iff_forall_not_mem, mem_candidates]

/-- The first candidate heads the list. -/
theorem candidates_eq_cons_of_first {phi e : Nat} (h : IsFirstCandidate phi e) : ∃ es, candidates phi = e :: es := by
  obtain ⟨hcand, hleast⟩ := h
  have hmem := mem_candidates.2 hcand
  have hsorted := candidates_pairwise_lt phi
  cases hlist : candidates phi with
  | nil =>
    rw [hlist] at hmem
    exact absurd hmem List.not_mem_nil
  | cons e' es =>
    rw [hlist] at hmem hsorted
    have hle : e ≤ e' := hleast e' (mem_candidates.1 (hlist ▸ List.mem_cons_self))
    obtain rfl | htail := List.mem_cons.1 hmem
    · exact ⟨es, rfl⟩
    · have hlt := List.rel_of_pairwise_cons hsorted htail
      omega

section
variable {phi e : Nat} (fuel : Nat)

theorem passingFrom_succ_of_passes (h : passes phi e = true) :
    passingFrom phi (fuel + 1) e = e :: passingFrom phi fuel (e + 2) := by
  rw [passingFrom, List.range'_succ, List.filter_cons_of_pos h, passingFrom]

theorem passingFrom_succ_of_not_passes (h : ¬passes phi e = true) :
    passingFrom phi (fuel + 1) e = passingFrom phi fuel (e + 2) := by
  rw [passingFrom, List.range'_succ, List.filter_cons_of_neg h, passingFrom]

/-- From phi on no number passes, so a loop may stop there. -/
theorem passingFrom_of_le (h : phi ≤ e) : passingFrom phi fuel e = [] := by
  refine List.filter_eq_nil_iff.2 fun x hx hpass => ?_
  obtain ⟨i, -, rfl⟩ := List.mem_range'.1 hx
  have hlt := (passes_iff.1 hpass).1
  omega

end

/-! ### The two loops -/

/-- What selection answers for the numbers that pass (43_host_procedures.md R144). -/
def firstReply : List Nat → ProcReply Nat
  | [] => .error .noValidExponentFound
  | e :: _ => .ok e

section
variable {c : Config} {phi : Nat} (hphi : phi < 2 ^ c.width)
include hphi

/-- The generator from `e` on answers every number that passes. -/
theorem exponentsFrom_eq (fuel e : Nat) {s : State} (h : s.Fits c) :
    ∃ t, exponentsFrom phi fuel e s = (.ok (passingFrom phi fuel e), t) := by
  induction fuel generalizing e s with
  | zero => exact ⟨s, rfl⟩
  | succ fuel ih =>
    by_cases hlt : e < phi
    · obtain ⟨t, hrest⟩ := ih (e + 2) (runCmd_fits h (encode .egcd) e phi)
      refine ⟨t, ?_⟩
      rw [exponentsFrom, if_pos hlt, procEgcd_eq h (hlt.trans hphi) hphi (Nat.zero_lt_of_lt hlt)]
      simp only [hrest]
      by_cases hpass : passes phi e = true
      · rw [if_pos (passes_iff.1 hpass).2, passingFrom_succ_of_passes fuel hpass]
      · rw [if_neg fun hg => hpass (passes_iff.2 ⟨hlt, hg⟩), passingFrom_succ_of_not_passes fuel hpass]
    · exact ⟨s, by rw [exponentsFrom, if_neg hlt, passingFrom_of_le _ (Nat.le_of_not_lt hlt)]⟩

/-- Selection from `e` on answers the first number that passes. -/
theorem firstExponentFrom_eq (fuel e : Nat) {s : State} (h : s.Fits c) :
    ∃ t, t.Fits c ∧ firstExponentFrom phi fuel e s = (firstReply (passingFrom phi fuel e), t) := by
  induction fuel generalizing e s with
  | zero => exact ⟨s, h, rfl⟩
  | succ fuel ih =>
    by_cases hlt : e < phi
    · have hfits := runCmd_fits h (encode .egcd) e phi
      rw [firstExponentFrom, if_pos hlt, procEgcd_eq h (hlt.trans hphi) hphi (Nat.zero_lt_of_lt hlt)]
      by_cases hpass : passes phi e = true
      · refine ⟨_, hfits, ?_⟩
        rw [passingFrom_succ_of_passes fuel hpass]
        exact if_pos (passes_iff.1 hpass).2
      · obtain ⟨t, ht, hrest⟩ := ih (e + 2) hfits
        refine ⟨t, ht, ?_⟩
        rw [passingFrom_succ_of_not_passes fuel hpass, ← hrest]
        exact if_neg fun hg => hpass (passes_iff.2 ⟨hlt, hg⟩)
    · exact ⟨s, h, by rw [firstExponentFrom, if_neg hlt, passingFrom_of_le _ (Nat.le_of_not_lt hlt), firstReply]⟩

/-- The selection answers the first of the candidates. -/
theorem selectExponent_eq {s : State} (h : s.Fits c) :
    ∃ t, t.Fits c ∧ selectExponent phi s = (firstReply (candidates phi), t) := firstExponentFrom_eq hphi phi 7 h

theorem selectExponent_of_first {s : State} (h : s.Fits c) {e : Nat} (he : IsFirstCandidate phi e) :
    ∃ t, t.Fits c ∧ selectExponent phi s = (.ok e, t) := by
  obtain ⟨es, hlist⟩ := candidates_eq_cons_of_first he
  simpa only [hlist, firstReply] using selectExponent_eq hphi h

theorem selectExponent_of_none {s : State} (h : s.Fits c) (hnone : ∀ e, ¬IsCandidate phi e) :
    ∃ t, t.Fits c ∧ selectExponent phi s = (.error .noValidExponentFound, t) := by
  simpa only [candidates_eq_nil_iff.2 hnone, firstReply] using selectExponent_eq hphi h

end

/-- Settles O51: the generator answers the list of the candidates. -/
theorem generatorYieldsTheCandidates : Obligations.GeneratorYieldsTheCandidates := by
  intro s phi hs _ _ hphi
  obtain ⟨t, ht⟩ := exponentsFrom_eq hphi phi 7 ⟨hs, rfl⟩
  exact ⟨candidates phi, t, ht, fun _ => mem_candidates, candidates_pairwise_lt phi, candidates_eq_nil_of_le⟩

/-- Settles O52: the selection answers what heads the list of the candidates. -/
theorem selectionTakesTheFirstCandidate : Obligations.SelectionTakesTheFirstCandidate := by
  intro s phi hs _ _ hphi
  refine ⟨fun e he => ?_, fun hnone => ?_⟩
  · obtain ⟨t, -, ht⟩ := selectExponent_of_first hphi ⟨hs, rfl⟩ he
    exact ⟨t, ht⟩
  · obtain ⟨t, -, ht⟩ := selectExponent_of_none hphi ⟨hs, rfl⟩ hnone
    exact ⟨t, ht⟩

/-! ### Key assembly -/

/-- The inverse of an exponent is that exponent exactly when e * e = 1 modulo phi. -/
theorem inverse_eq_self_iff {phi e d : Nat} (hgcd : Nat.gcd e phi = 1) (he : e < phi) (hd : d < phi)
    (hinv : e * d % phi = 1) : d = e ↔ e * e % phi = 1 := by
  constructor
  · rintro rfl
    exact hinv
  · exact fun hself => inverse_unique hgcd he hd hself hinv

/-- From a candidate, key assembly takes its inverse and refuses it where it is the candidate itself
(43_host_procedures.md R145). -/
theorem keyFromExponent_eq {c : Config} {s : State} (h : s.Fits c) {phi e : Nat} (hphi : phi < 2 ^ c.width)
    (he : IsCandidate phi e) (n : Nat) : ∃ d t, 1 ≤ d ∧ d < phi ∧ e * d % phi = 1 ∧
      keyFromExponent n phi e s = (if d = e then .error .degenerateKeyPair else .ok { e := e, d := d, n := n }, t) := by
  obtain ⟨-, h7, hlt, hgcd, -⟩ := he
  obtain ⟨d, hproc, h1, hd, hinv⟩ := procModInverse_coprime h (hlt.trans hphi) hphi (by omega) (by omega) hgcd
  exact ⟨d, _, h1, hd, hinv, by rw [keyFromExponent, hproc]⟩

/-- Settles O53: the selection's answer decides between a failure and the inverse of the first candidate. -/
theorem keyAssemblyGivesAKeyPair : Obligations.KeyAssemblyGivesAKeyPair := by
  intro s p q hs _ _ hn
  have hphi : (p - 1) * (q - 1) < 2 ^ s.cfg.width :=
    (Nat.mul_le_mul (Nat.sub_le p 1) (Nat.sub_le q 1)).trans_lt hn
  refine ⟨fun hnone => ?_, fun e hfirst => ?_⟩
  · obtain ⟨t, -, hsel⟩ := selectExponent_of_none hphi ⟨hs, rfl⟩ hnone
    exact ⟨t, by rw [assembleKeys, hsel]⟩
  · obtain ⟨t, hfits, hsel⟩ := selectExponent_of_first hphi ⟨hs, rfl⟩ hfirst
    obtain ⟨d, u, h1, hd, hinv, hkey⟩ := keyFromExponent_eq hfits hphi hfirst.1 (p * q)
    obtain ⟨⟨-, -, hlt, hgcd, -⟩, -⟩ := hfirst
    have hself := inverse_eq_self_iff hgcd hlt hd hinv
    have hassemble : assembleKeys p q s = keyFromExponent (p * q) ((p - 1) * (q - 1)) e t := by
      rw [assembleKeys, hsel]
    refine ⟨fun hone => ⟨u, ?_⟩, fun hone => ⟨d, u, ?_, h1, hd, fun heq => hone (hself.1 heq), hinv⟩⟩
    · rw [hassemble, hkey, if_pos (hself.2 hone)]
    · rw [hassemble, hkey, if_neg fun heq => hone (hself.1 heq)]

end Sys2Proof.Machine
end

section
/-! PROOFS. encrypt and decrypt: what one element answers, the sequence of them, and the round trip. -/

namespace Sys2Proof.Machine

/-! ### One element -/

/-- The block before an element of a codec: idle, with the exponent in OPB and the modulus in OPC. -/
structure State.Keyed (c : Config) (x n : Nat) (s : State) : Prop where
  fits : s.Fits c
  idle : s.busy = false
  exponent : uint s.opb = x
  modulus : uint s.opc = n

/-- The writes of the key (43_host_procedures.md R146, R147). -/
theorem writeKey_keyed {c : Config} {s : State} (h : s.Fits c) (hidle : s.busy = false) {x n : Nat}
    (hx : x < 2 ^ c.width) (hn : n < 2 ^ c.width) : (writeReg .opc n (writeReg .opb x s)).Keyed c x n := by
  have hfits := writeReg_fits h hidle (r := .opb) rfl x
  have hidle' := writeReg_idle h hidle (r := .opb) rfl x
  have hopb := uint_writeReg_same h hidle (r := .opb) rfl x hx
  rw [← writeReg_getReg_other hfits hidle' (r := .opc) rfl n (q := .opb) (by decide)] at hopb
  exact ⟨writeReg_fits hfits hidle' rfl n, writeReg_idle hfits hidle' rfl n, hopb,
    uint_writeReg_same hfits hidle' (r := .opc) rfl n hn⟩

section
variable {c : Config} {x n : Nat} {s : State} (h : s.Keyed c x n)
include h

/-- The write of OPA leaves the key in place. -/
theorem writeReg_opa_keyed (m : Nat) : (writeReg .opa m s).Keyed c x n := by
  have hother {q : DataReg} (hq : q ≠ .opa) := writeReg_getReg_other h.fits h.idle (r := .opa) rfl m hq
  exact ⟨writeReg_fits h.fits h.idle rfl m, writeReg_idle h.fits h.idle rfl m,
    (congrArg uint (hother (q := .opb) (by decide))).trans h.exponent,
    (congrArg uint (hother (q := .opc) (by decide))).trans h.modulus⟩

/-- An element leaves the key in place for the next one. -/
theorem stepElement_keyed (word : Word) (m : Nat) : (stepElement word m s).Keyed c x n := by
  have hopa := writeReg_opa_keyed h m
  have hother {q : DataReg} (hq : q.isOperand = true) := runCommand_getReg_operand hopa.idle word hq
  exact ⟨runCommand_fits hopa.fits hopa.idle word, runCommand_busy _ _,
    (congrArg uint (hother (q := .opb) rfl)).trans hopa.exponent,
    (congrArg uint (hother (q := .opc) rfl)).trans hopa.modulus⟩

/-- An element of a command is that command's meaning on operands of these values. -/
theorem exists_exec_stepElement (i : Instr) {m : Nat} (hm : m < 2 ^ c.width) :
    ∃ t : State, t.cfg = c ∧ uint t.opa = m ∧ uint t.opb = x ∧ uint t.opc = n ∧
      exec i t = .next (stepElement (encode i) m s) := by
  obtain ⟨hfits, hidle, hopb, hopc⟩ := writeReg_opa_keyed h m
  have hopa := uint_writeReg_same h.fits h.idle (r := .opa) rfl m hm
  exact ⟨(writeReg .opa m s).start (encode i), hfits.cfg_eq, hopa, hopb, hopc, exec_start hidle i⟩

/-- What CHECK and RDW of RES0 answer after an element without error. -/
theorem stepElement_answer {word : Word} {m v : Nat} (hv : v < 2 ^ c.width) (herr : (stepElement word m s).err = 0)
    (hres : (stepElement word m s).res0 = toWords c.nwords v) :
    (stepElement word m s).check = 0 ∧ (stepElement word m s).readReg .res0 = v := by
  refine ⟨(check_eq _).trans herr, ?_⟩
  rw [readReg_eq (stepElement_keyed h word m).fits.sized, State.getReg_res0, hres, uint_toWords_of_lt hv]

end

/-- The element `m` ends without error and RES0 reads `v`, whatever the block with the key held before. -/
def ElementAnswers (c : Config) (x n : Nat) (word : Word) (m v : Nat) : Prop :=
  ∀ s : State, s.Keyed c x n → (stepElement word m s).check = 0 ∧ (stepElement word m s).readReg .res0 = v

/-- The element `m` ends with the error `code`. -/
def ElementFails (c : Config) (x n : Nat) (word : Word) (m : Nat) (code : BitVec 4) : Prop :=
  ∀ s : State, s.Keyed c x n → (stepElement word m s).check = code

/-- A residue modulo `n` fits the result register. -/
theorem mod_lt_width {c : Config} {n : Nat} (hn : 0 < n) (hnW : n < 2 ^ c.width) (v : Nat) : v % n < 2 ^ c.width :=
  (Nat.mod_lt v hn).trans hnW

section
variable {c : Config} {x n m : Nat} (hn : 0 < n) (hm : m < 2 ^ c.width)
include hn hm

/-- ENCSTEP of a code point below the modulus (42_modexp.md R122). -/
theorem encstep_answers (hnW : n < 2 ^ c.width) (hlt : m < n) :
    ElementAnswers c x n (encode .encstep) m (m ^ x % n) := by
  intro s h
  obtain ⟨t, hcfg, hopa, hopb, hopc, hexec⟩ := exists_exec_stepElement h .encstep hm
  rw [encstepResult, hopa, hopb, hopc, if_neg hn.ne', if_neg (Nat.not_le.2 hlt)] at hexec
  have hstep := (Host.Outcome.next.inj hexec).symm
  exact stepElement_answer h (mod_lt_width hn hnW _) (by rw [hstep]) (by rw [hstep, hcfg])

/-- ENCSTEP of a code point the modulus does not exceed (42_modexp.md R122). -/
theorem encstep_fails (hle : n ≤ m) : ElementFails c x n (encode .encstep) m CmdError.charTooLarge.code := by
  intro s h
  obtain ⟨t, -, hopa, -, hopc, hexec⟩ := exists_exec_stepElement h .encstep hm
  rw [encstepResult, hopa, hopc, if_neg hn.ne', if_pos hle] at hexec
  rw [check_eq, ← Host.Outcome.next.inj hexec]
  rfl

/-- DECSTEP with a result that is a code point (42_modexp.md R123). -/
theorem decstep_answers (hnW : n < 2 ^ c.width) (hle : m ^ x % n ≤ 0x10FFFF) :
    ElementAnswers c x n (encode .decstep) m (m ^ x % n) := by
  intro s h
  obtain ⟨t, hcfg, hopa, hopb, hopc, hexec⟩ := exists_exec_stepElement h .decstep hm
  rw [decstepResult, hopa, hopb, hopc, if_neg hn.ne', if_neg (Nat.not_lt.2 hle)] at hexec
  have hstep := (Host.Outcome.next.inj hexec).symm
  exact stepElement_answer h (mod_lt_width hn hnW _) (by rw [hstep]) (by rw [hstep, hcfg])

/-- DECSTEP with a result that is none (42_modexp.md R123). -/
theorem decstep_fails (hlt : 0x10FFFF < m ^ x % n) :
    ElementFails c x n (encode .decstep) m CmdError.invalidChar.code := by
  intro s h
  obtain ⟨t, -, hopa, hopb, hopc, hexec⟩ := exists_exec_stepElement h .decstep hm
  rw [decstepResult, hopa, hopb, hopc, if_neg hn.ne', if_pos hlt] at hexec
  rw [check_eq, ← Host.Outcome.next.inj hexec]
  rfl

end

/-! ### The sequence -/

section
variable {c : Config} {x n : Nat} {word : Word}

/-- Where every element answers, the loop answers their values in order and leaves the key in place. -/
theorem codecLoop_of_answers {f : Nat → Nat} {ms : List Nat} (hms : ∀ m ∈ ms, ElementAnswers c x n word m (f m))
    {s : State} (h : s.Keyed c x n) : ∃ t, t.Keyed c x n ∧ codecLoop word ms s = (.ok (ms.map f), t) := by
  induction ms generalizing s with
  | nil => exact ⟨s, h, rfl⟩
  | cons m ms ih =>
    obtain ⟨hcheck, hread⟩ := hms m List.mem_cons_self s h
    obtain ⟨t, ht, hloop⟩ := ih (fun m' hm' => hms m' (List.mem_cons_of_mem m hm')) (stepElement_keyed h word m)
    refine ⟨t, ht, ?_⟩
    rw [codecLoop_cons_of_ok hcheck hloop, hread, List.map_cons]

/-- Where every element answers or fails with one code, and some element fails, the loop answers that failure. -/
theorem codecLoop_of_failure {code : BitVec 4} (hcode : code ≠ 0) {ms : List Nat}
    (hms : ∀ m ∈ ms, (∃ v, ElementAnswers c x n word m v) ∨ ElementFails c x n word m code)
    (hfail : ∃ m ∈ ms, ElementFails c x n word m code) {s : State} (h : s.Keyed c x n) :
    ∃ t, codecLoop word ms s = (failReply code, t) := by
  induction ms generalizing s with
  | nil =>
    obtain ⟨m, hm, -⟩ := hfail
    exact absurd hm List.not_mem_nil
  | cons m ms ih =>
    have hstops (hm : ElementFails c x n word m code) : ∃ t, codecLoop word (m :: ms) s = (failReply code, t) :=
      ⟨_, by rw [codecLoop_cons_of_error ((hm s h).trans_ne hcode), hm s h]⟩
    obtain ⟨m', hm', hfails⟩ := hfail
    obtain rfl | htail := List.mem_cons.1 hm'
    · exact hstops hfails
    · obtain ⟨v, hanswers⟩ | hfails' := hms m List.mem_cons_self
      · obtain ⟨t, hloop⟩ := ih (fun k hk => hms k (List.mem_cons_of_mem m hk)) ⟨m', htail, hfails⟩
          (stepElement_keyed h word m)
        exact ⟨t, codecLoop_cons_of_later_error (hanswers s h).1 hloop⟩
      · exact hstops hfails'

end

/-! ### encrypt and decrypt -/

/-- Settles O58, code by code. -/
theorem errorCodesMapToSourceErrors : Obligations.ErrorCodesMapToSourceErrors := ⟨rfl, rfl, rfl, rfl, rfl, rfl⟩

/-- Settles O56: the loop over no element answers at once, on the block the key writes leave. -/
theorem emptyTextNeedsNoCommand : Obligations.EmptyTextNeedsNoCommand := fun _ _ _ _ => ⟨rfl, rfl⟩

section
variable {c : Config} {n : Nat} (hn : 0 < n) (hnW : n < 2 ^ c.width) {s : State} (h : s.Fits c) (hidle : s.busy = false)
include hn hnW h hidle

/-- encrypt of code points below the modulus, and the key it leaves. -/
theorem encrypt_of_lt {e : Nat} (he : e < 2 ^ c.width) {cps : List Nat} (hcps : ∀ m ∈ cps, m < n) :
    ∃ t, t.Keyed c e n ∧ encrypt cps e n s = (.ok (cps.map fun m => m ^ e % n), t) :=
  codecLoop_of_answers (fun m hm => encstep_answers hn ((hcps m hm).trans hnW) hnW (hcps m hm))
    (writeKey_keyed h hidle he hnW)

/-- decrypt of values whose powers are code points. -/
theorem decrypt_of_le {d : Nat} (hd : d < 2 ^ c.width) {cs : List Nat} (hcs : ∀ v ∈ cs, v < 2 ^ c.width)
    (hle : ∀ v ∈ cs, v ^ d % n ≤ 0x10FFFF) :
    ∃ t, t.Keyed c d n ∧ decrypt cs d n s = (.ok (cs.map fun v => v ^ d % n), t) :=
  codecLoop_of_answers (fun v hv => decstep_answers hn (hcs v hv) hnW (hle v hv)) (writeKey_keyed h hidle hd hnW)

end

/-- Every code point fits an operand register: 0x10FFFF < 2^32 (00_scope.md R6). -/
theorem codePoint_lt_width {s : State} (hs : s.Sized) {m : Nat} (hm : m ≤ 0x10FFFF) : m < 2 ^ s.cfg.width := by
  have hpow : 2 ^ 32 ≤ 2 ^ s.cfg.width :=
    Nat.pow_le_pow_right (Nat.succ_pos 1) (Nat.le_mul_of_pos_right 32 hs.nwords_pos)
  omega

/-- Settles O54: an element is a code point below the modulus, which answers, or one that is not, which fails. -/
theorem encryptIsElementwise : Obligations.EncryptIsElementwise := by
  intro s cps e n hs hready hn hnW he hcps
  have h : s.Fits s.cfg := ⟨hs, rfl⟩
  refine ⟨fun hlt => ?_, fun ⟨m, hm, hle⟩ => ?_⟩
  · obtain ⟨t, -, ht⟩ := encrypt_of_lt hn hnW h hready.idle he hlt
    exact ⟨t, ht⟩
  · have hW (m : Nat) (hm : m ∈ cps) : m < 2 ^ s.cfg.width := codePoint_lt_width hs (hcps m hm)
    refine codecLoop_of_failure (CmdError.code_ne_zero .charTooLarge) (fun k hk => ?_)
      ⟨m, hm, encstep_fails hn (hW m hm) hle⟩ (writeKey_keyed h hready.idle he hnW)
    exact (Nat.lt_or_ge k n).imp (fun hlt => ⟨_, encstep_answers hn (hW k hk) hnW hlt⟩) (encstep_fails hn (hW k hk))

/-- Settles O55: an element's power is a code point, and it answers, or is none, and it fails. -/
theorem decryptIsElementwise : Obligations.DecryptIsElementwise := by
  intro s cs d n hs hready hn hnW hd hcs
  have h : s.Fits s.cfg := ⟨hs, rfl⟩
  refine ⟨fun hle => ?_, fun ⟨v, hv, hlt⟩ => ?_⟩
  · obtain ⟨t, -, ht⟩ := decrypt_of_le hn hnW h hready.idle hd hcs hle
    exact ⟨t, ht⟩
  · refine codecLoop_of_failure (CmdError.code_ne_zero .invalidChar) (fun k hk => ?_)
      ⟨v, hv, decstep_fails hn (hcs v hv) hlt⟩ (writeKey_keyed h hready.idle hd hnW)
    exact (le_or_gt _ _).imp (fun hle => ⟨_, decstep_answers hn (hcs k hk) hnW hle⟩) (decstep_fails hn (hcs k hk))

/-! ### The round trip -/

/-- Fermat's little theorem for an exponent that is 1 modulo p - 1, zero residues included. -/
theorem pow_modEq_self {p k : Nat} (hp : p.Prime) (hk : 0 < k) (hdvd : p - 1 ∣ k - 1) (m : Nat) :
    m ^ k ≡ m [MOD p] := by
  have hint := Int.ModEq.pow_eq_pow hp hdvd hk Nat.one_pos m
  rw [pow_one] at hint
  exact_mod_cast hint

section
variable {p q : Nat} (hp : p.Prime) (hq : q.Prime) (hpq : p ≠ q)
include hp hq hpq

/-- Distinct primes: one of them is above 2, so (p - 1)(q - 1) is above 1. -/
theorem one_lt_totient : 1 < (p - 1) * (q - 1) := by
  have hp2 := hp.two_le
  have hq2 := hq.two_le
  rcases Nat.lt_or_gt_of_ne hpq with hlt | hgt
  · exact (show 1 < q - 1 by omega).trans_le (Nat.le_mul_of_pos_left _ (by omega))
  · exact (show 1 < p - 1 by omega).trans_le (Nat.le_mul_of_pos_right _ (by omega))

/-- The power of one exponent undoes that of the other (43_host_procedures.md R149). -/
theorem pow_pow_mod_eq_self {e d m : Nat} (hed : e * d ≡ 1 [MOD (p - 1) * (q - 1)]) (hm : m < p * q) :
    (m ^ e % (p * q)) ^ d % (p * q) = m := by
  have hpos : 0 < e * d := by
    refine Nat.pos_of_ne_zero fun hzero => ?_
    have htot := one_lt_totient hp hq hpq
    rw [hzero] at hed
    exact absurd (hed.eq_of_lt_of_lt (Nat.zero_lt_of_lt htot) htot) Nat.zero_ne_one
  have hdvd : (p - 1) * (q - 1) ∣ e * d - 1 := (Nat.modEq_iff_dvd' hpos).1 hed.symm
  have hself : m ^ (e * d) ≡ m [MOD p * q] := by
    refine (Nat.modEq_and_modEq_iff_modEq_mul ((Nat.coprime_primes hp hq).2 hpq)).1 ⟨?_, ?_⟩
    · exact pow_modEq_self hp hpos ((Nat.dvd_mul_right _ _).trans hdvd) m
    · exact pow_modEq_self hq hpos ((Nat.dvd_mul_left _ _).trans hdvd) m
  calc (m ^ e % (p * q)) ^ d % (p * q) = m ^ (e * d) % (p * q) := by rw [← Nat.pow_mod, Nat.pow_mul]
    _ = m := Nat.mod_eq_of_modEq hself hm

end

/-- Settles O57: encrypt leaves an idle block, and there decrypt takes the powers back. -/
theorem decryptInvertsEncrypt : Obligations.DecryptInvertsEncrypt := by
  intro s p q e d text hs hready hp hq hpq hnW he hd hed htext
  have hn : 0 < p * q := Nat.mul_pos hp.pos hq.pos
  have hback (m : Nat) (hm : m ∈ text) : (m ^ e % (p * q)) ^ d % (p * q) = m :=
    pow_pow_mod_eq_self hp hq hpq hed (htext m hm).1
  obtain ⟨t, ht, henc⟩ := encrypt_of_lt hn hnW ⟨hs, rfl⟩ hready.idle he fun m hm => (htext m hm).1
  obtain ⟨u, -, hdec⟩ := decrypt_of_le hn hnW ht.fits ht.idle hd (cs := text.map fun m => m ^ e % (p * q))
    (List.forall_mem_map.2 fun m _ => mod_lt_width hn hnW _)
    (List.forall_mem_map.2 fun m hm => (hback m hm).trans_le (htext m hm).2)
  refine ⟨_, t, u, henc, ?_⟩
  have hmap : (text.map fun m => m ^ e % (p * q)).map (fun v => v ^ d % (p * q)) = text := by
    rw [List.map_map]
    exact (List.map_congr_left hback).trans (List.map_id text)
  rw [hdec, hmap]

end Sys2Proof.Machine
end

section
/-! PROOFS. The code of every completion: where decoding ends, and the order in which each command checks its errors. -/

namespace Sys2Proof.Machine

/-! ### The errors of each command -/

section
variable (n : Nat) (A B C : List Word)

theorem egcdCommand_code : (egcdCommand n A B).code = if uint B = 0 then 2 else 0 := by
  rw [egcdCommand]
  split_ifs <;> rfl

/-- The operands are checked before the gcd (60_exceptions.md R166). -/
theorem modinvCommand_code : (modinvCommand n A B).code =
    if uint A = 0 then 2 else if uint B ≤ 1 then 2 else if Nat.gcd (uint A) (uint B) ≠ 1 then 3 else 0 := by
  rw [modinvCommand, egcdCore_gcd, ite_or]
  split_ifs <;> rfl

theorem modexpCommand_code : (modexpCommand n A B C).code = if uint C = 0 then 2 else 0 := by
  rw [modexpCommand]
  split_ifs <;> rfl

theorem encstepCommand_code : (encstepCommand n A B C).code =
    if uint C = 0 then 2 else if uint C ≤ uint A then 4 else 0 := by
  rw [encstepCommand]
  split_ifs <;> rfl

theorem decstepCommand_code : (decstepCommand n A B C).code =
    if uint C = 0 then 2 else if 0x10FFFF < uint A ^ uint B % uint C then 5 else 0 := by
  rw [decstepCommand, modPow_eq_pow_mod, maxCodePoint]
  split_ifs <;> rfl

end

/-! ### Every command word -/

/-- No command's OP stands under RSV = 0 in an illegal word (30_encoding.md R71, R72). -/
theorem opField_ne_opOf_of_illegal {w : Word} {why : IllegalWord} (h : decodeWord w = .illegal why)
    (hrsv : rsvField w = 0) (i : Instr) : opField w ≠ opOf i := by
  intro hop
  have hdec : decodeWord w = .command i := (if_pos hrsv).trans (hop ▸ decodeOp_opOf i)
  cases h.symm.trans hdec

/-- The code of `Execute`: the illegal words first, then the errors of the command that OP names (60_exceptions.md
R166). -/
theorem execute_code (n : Nat) (cur : Word) (A B C : List Word) : (execute n cur A B C).code =
    if rsvField cur ≠ 0 then 1
    else if opField cur = 1 then (egcdCommand n A B).code
    else if opField cur = 2 then (modinvCommand n A B).code
    else if opField cur = 3 then (modexpCommand n A B C).code
    else if opField cur = 4 then (encstepCommand n A B C).code
    else if opField cur = 5 then (decstepCommand n A B C).code
    else 1 := by
  obtain ⟨i, hdec, hrsv, hop⟩ | ⟨why, hill⟩ := decodeWord_cases cur
  · rw [execute, hdec, hrsv, hop]
    cases i <;> rfl
  · rw [execute_of_illegal hill]
    by_cases hrsv : rsvField cur = 0
    · have hne := opField_ne_opOf_of_illegal hill hrsv
      exact .symm <| (if_neg (not_not_intro hrsv)).trans <| (if_neg (hne .egcd)).trans <|
        (if_neg (hne .modinv)).trans <| (if_neg (hne .modexp)).trans <| (if_neg (hne .encstep)).trans <|
        if_neg (hne .decstep)
    · exact (if_pos hrsv).symm

/-- Settles O47: the completion leaves the code of `Execute`, command by command. -/
theorem completionCodeFollowsThePriority : Obligations.CompletionCodeFollowsThePriority := by
  intro s he hb hr
  refine ⟨_, step_completes he hb hr, ?_⟩
  rw [complete_err, execute_code, egcdCommand_code, modinvCommand_code, modexpCommand_code, encstepCommand_code,
    decstepCommand_code]
  rfl

end Sys2Proof.Machine
end

section
/-! PROOFS. The two resets as single steps: what each leaves of a command in flight, and what the block does while the
pin holds it. -/

namespace Sys2Proof.Machine

/-! ### The soft reset -/

/-- Settles O22: the step leaves `afterReset`, where CTRL reads SRST = 0. -/
theorem softResetAbandonsTheCommand : Obligations.SoftResetAbandonsTheCommand := by
  intro s v hacc hr hv
  refine ⟨_, step_write_srst hacc hr hv, ?_, ?_⟩
  · rw [hr]
    rfl
  · obtain ⟨-, hsrst, -⟩ := ctrlWord_fields false
    rwa [busRead_ctrl, State.afterReset_ie]

/-! ### The hardware reset -/

/-- The level that releases reset, while it is not asserted (log 16). -/
theorem driveReset_release_idle {s : State} (hr : s.resetAsserted = false) :
    s.driveReset (!s.cfg.resetActiveHigh) = s := by
  rw [State.driveReset, if_neg (Bool.not_ne_self _), if_neg (ne_true_of_eq_false hr)]

/-- A step in which the pin asserts reset (70_reset_and_hazards.md R190). -/
theorem step_assert {s : State} (hpin : s.turns.head? = some (.resetPin s.cfg.resetActiveHigh)) :
    step s = .next (State.afterReset s.cfg true s.turns.tail s.responses) :=
  (step_resetPin hpin).trans (congrArg _ (driveReset_assert s.popTurn))

/-- A step in which the pin releases a block held in reset (70_reset_and_hazards.md R190). -/
theorem step_release {s : State} (hheld : s.resetAsserted = true)
    (hpin : s.turns.head? = some (.resetPin !s.cfg.resetActiveHigh)) :
    step s = .next (State.afterReset s.cfg false s.turns.tail s.responses) :=
  (step_resetPin hpin).trans (congrArg _ (driveReset_release (s := s.popTurn) hheld))

/-- A step in which the pin takes the releasing level and reset is not asserted (log 16). -/
theorem step_release_idle {s : State} (hr : s.resetAsserted = false)
    (hpin : s.turns.head? = some (.resetPin !s.cfg.resetActiveHigh)) : step s = .next s.popTurn :=
  (step_resetPin hpin).trans (congrArg _ (driveReset_release_idle (s := s.popTurn) hr))

/-- An offset inside the window is an address the block decodes (20_memory.md R50). -/
theorem decodes_base_add (c : Config) {off : Nat} (hoff : off < Config.windowSize) :
    Config.decodes c (c.base + off) = true := by
  simp [Config.decodes, hoff]

/-- A step in which the host accesses the window of a block held in reset (70_reset_and_hazards.md R190). -/
theorem step_access_held {s : State} {k : AccessKind} {width off : Nat} (h : s.accessNext k width off)
    (hheld : s.resetAsserted = true) : step s = .refused .accessDuringReset := by
  obtain ⟨hoff, hhead⟩ := h
  rw [step_access_turn hhead]
  exact access_during_reset (decodes_base_add s.popTurn.cfg hoff) hheld

/-- A block fresh from reset, its pin released, takes a start (70_reset_and_hazards.md R190, R192). -/
theorem afterReset_ready (c : Config) (ts : List Turn) (rs : List Response) :
    (State.afterReset c false ts rs).Ready :=
  ⟨rfl, rfl⟩

/-- Settles O23, move by move: the pin asserts, then the engine, the host and the pin's release under reset, and a
release with none to end. -/
theorem hardwareResetAbandonsTheCommand : Obligations.HardwareResetAbandonsTheCommand := by
  intro s
  refine ⟨step_assert, fun hheld he => ?_, fun hheld k width off hacc => ?_, fun hheld hpin => ?_, step_release_idle⟩
  · exact engineWithoutCommandChangesNothing s he (.inr hheld)
  · exact step_access_held hacc hheld
  · exact ⟨_, step_release hheld hpin, rfl, afterReset_ready ..⟩

end Sys2Proof.Machine
end
